-- ==== Sys2Proof/Word.lean ====
section
/-! DEFINITION. The two word types of the block: bytes of INBUF, entropy and dictionary words, and the 32-bit bus word
(spec/00_scope.md R17, spec/20_memory.md R67). -/

namespace Sys2Proof

/-- One byte: an input symbol, an entropy byte, a character of a dictionary word. -/
abbrev Byte := BitVec 8

/-- One 32-bit word: a register value on the bus, a command word, a word of SHA-256. -/
abbrev Word := BitVec 32

end Sys2Proof
end

