-- ==== Sys2Proof/Config.lean ====
section
/-! DEFINITION. What an implementation fixes (the build parameters of spec/00_scope.md R7 to R15) and the values the
spec leaves open (spec/93_implementation_defined.md): each open value is an opaque constant with no body. -/

namespace Sys2Proof

/-- The legal word counts W: the multiples of 3 from 3 to 24 (00_scope.md R8). "A build with any other W does not
exist", so none can be written. -/
inductive WordCount where
  | w3 | w6 | w9 | w12 | w15 | w18 | w21 | w24
  deriving DecidableEq, Repr

/-- The HASH parameter (00_scope.md R11): the default SHA-256, or another function of `hashLen` output bits
(HASH_LEN), which stays uninterpreted. -/
inductive HashChoice where
  | sha256
  | pluggable (hashLen : Nat)
  deriving DecidableEq, Repr

/-- The build parameters (00_scope.md R7 to R15, 10_state.md R45). They are configuration: no step changes them
(70_reset_and_hazards.md R273). They stand in State as plain data so that `exec` covers every build (log 1). -/
structure Build where
  /-- W, the word count (R7, R8). -/
  w : WordCount
  /-- HASH (R11). -/
  hash : HashChoice
  /-- What is known of DICT (R12): index and word. Every entry not listed is free (log 2). -/
  dict : List (Nat × List Byte)
  /-- WORD_BYTES (R13). -/
  wordBytes : Nat
  /-- BASE, the bus address of the window (R14). -/
  base : Nat
  /-- ALLOW_SPURIOUS_FATAL (60_exceptions.md R247). -/
  allowSpuriousFatal : Bool
  deriving DecidableEq, Repr

/-- The reference build: the table of 00_scope.md section 3. DESIGN CHOICE (log 1): BASE is the platform's, here 0, and
DICT is left wholly free. -/
def Build.reference : Build :=
  { w := .w24, hash := .sha256, dict := [], wordBytes := 8, base := 0, allowSpuriousFatal := false }

/-- Free value (00_scope.md R15, U2): whether the RNG answers Exhausted to its request number `n`. Log 4. -/
opaque Config.rngExhausted : Nat → Bool

/-- Free value (20_memory.md R66, U2): byte `k` of the RNG's answer to request number `n`. Log 4. -/
opaque Config.rngByte : Nat → Nat → Byte

/-- Free value (45_session.md R217, U1): the bits of STATUS that a read while busy leaves open. Log 6. -/
opaque Config.busyStatus : Nat → Word

/-- Free value (60_exceptions.md R247, U6): whether an implementation self-check fails at this completion. Log 7. -/
opaque Config.selfCheckFails : Nat → Bool

/-- Free value (00_scope.md R11, U8): bit `j` of a pluggable HASH's digest of a message. Log 3. -/
opaque Config.hashBit : List Byte → Nat → Bool

/-- Free value (00_scope.md R12, U7): the word of DICT at an index nothing is known of. Log 2. -/
opaque Config.dictRom : Nat → List Byte

end Sys2Proof
end

