-- ==== Sys2Proof/Machine/Bits.lean ====
section
/-! DEFINITION. Bit sequences as spec/00_scope.md R17 and R18 read them: position 0 is the first and most significant
bit. A sequence is a `List Bool`. -/

namespace Sys2Proof.Machine

/-- `uint(S)`: the sequence read as an unsigned integer, most significant bit first (R17). -/
def uint (s : List Bool) : Nat := s.foldl (fun acc b => 2 * acc + b.toNat) 0

/-- `seq_n(v)`: the n-bit sequence of v, `S⟨k⟩ = v[n-1-k]` (R17). -/
def seqOf (n v : Nat) : List Bool := (List.range n).map (fun k => v.testBit (n - 1 - k))

/-- `S⟨a .. a+n-1⟩`: the n positions from a, in order (R17). -/
def slice (s : List Bool) (a n : Nat) : List Bool := (s.drop a).take n

/-- `bits_of(B)`: the bytes in order, each most significant bit first (R18, 20_memory.md R68). -/
def bitsOf (b : List Byte) : List Bool := b.flatMap (fun x => seqOf 8 x.toNat)

/-- `bytes_of(S)`: byte k is `uint(S⟨8k .. 8k+7⟩)` (R18, 20_memory.md R68). -/
def bytesOf (s : List Bool) : List Byte :=
  (List.range (s.length / 8)).map (fun k => BitVec.ofNat 8 (uint (slice s (8 * k) 8)))

end Sys2Proof.Machine
end

