-- ==== Sys2Proof/Machine/Sha256.lean ====
section
/-! DEFINITION. SHA-256, the default HASH, as spec/43_sha256.md R171 to R178 give it. -/

namespace Sys2Proof.Machine

/-- ROTR (R171). -/
def shaRotr (x : Word) (n : Nat) : Word := (x >>> n) ||| (x <<< (32 - n))

/-- Ch (R172). -/
def shaCh (x y z : Word) : Word := (x &&& y) ^^^ (~~~x &&& z)

/-- Maj (R172). -/
def shaMaj (x y z : Word) : Word := (x &&& y) ^^^ (x &&& z) ^^^ (y &&& z)

/-- Σ0 (R172). -/
def shaBig0 (x : Word) : Word := shaRotr x 2 ^^^ shaRotr x 13 ^^^ shaRotr x 22

/-- Σ1 (R172). -/
def shaBig1 (x : Word) : Word := shaRotr x 6 ^^^ shaRotr x 11 ^^^ shaRotr x 25

/-- σ0 (R172). -/
def shaSmall0 (x : Word) : Word := shaRotr x 7 ^^^ shaRotr x 18 ^^^ (x >>> 3)

/-- σ1 (R172). -/
def shaSmall1 (x : Word) : Word := shaRotr x 17 ^^^ shaRotr x 19 ^^^ (x >>> 10)

/-- The round constants K[0..63] (R173). -/
def shaK : List Word :=
  [0x428a2f98, 0x71374491, 0xb5c0fbcf, 0xe9b5dba5, 0x3956c25b, 0x59f111f1, 0x923f82a4, 0xab1c5ed5] ++
  [0xd807aa98, 0x12835b01, 0x243185be, 0x550c7dc3, 0x72be5d74, 0x80deb1fe, 0x9bdc06a7, 0xc19bf174] ++
  [0xe49b69c1, 0xefbe4786, 0x0fc19dc6, 0x240ca1cc, 0x2de92c6f, 0x4a7484aa, 0x5cb0a9dc, 0x76f988da] ++
  [0x983e5152, 0xa831c66d, 0xb00327c8, 0xbf597fc7, 0xc6e00bf3, 0xd5a79147, 0x06ca6351, 0x14292967] ++
  [0x27b70a85, 0x2e1b2138, 0x4d2c6dfc, 0x53380d13, 0x650a7354, 0x766a0abb, 0x81c2c92e, 0x92722c85] ++
  [0xa2bfe8a1, 0xa81a664b, 0xc24b8b70, 0xc76c51a3, 0xd192e819, 0xd6990624, 0xf40e3585, 0x106aa070] ++
  [0x19a4c116, 0x1e376c08, 0x2748774c, 0x34b0bcb5, 0x391c0cb3, 0x4ed8aa4a, 0x5b9cca4f, 0x682e6ff3] ++
  [0x748f82ee, 0x78a5636f, 0x84c87814, 0x8cc70208, 0x90befffa, 0xa4506ceb, 0xbef9a3f7, 0xc67178f2]

/-- The eight words of a hash value, a to h (R174, R177). -/
structure ShaRegs where
  a : Word
  b : Word
  c : Word
  d : Word
  e : Word
  f : Word
  g : Word
  h : Word
  deriving DecidableEq, Repr

/-- The initial hash value (R174). -/
def shaInit : ShaRegs :=
  ⟨0x6a09e667, 0xbb67ae85, 0x3c6ef372, 0xa54ff53a, 0x510e527f, 0x9b05688c, 0x1f83d9ab, 0x5be0cd19⟩

/-- Word-wise addition modulo 2^32 (R177, last line). -/
def shaAdd (x y : ShaRegs) : ShaRegs :=
  ⟨x.a + y.a, x.b + y.b, x.c + y.c, x.d + y.d, x.e + y.e, x.f + y.f, x.g + y.g, x.h + y.h⟩

/-- One round with constant `k` and schedule word `w` (R177). -/
def shaRound (r : ShaRegs) (k w : Word) : ShaRegs :=
  let t1 := r.h + shaBig1 r.e + shaCh r.e r.f r.g + k + w
  let t2 := shaBig0 r.a + shaMaj r.a r.b r.c
  ⟨t1 + t2, r.a, r.b, r.c, r.d + t1, r.e, r.f, r.g⟩

/-- `n` further schedule words put before the ones given, newest first:
Wd[t] = σ1(Wd[t-2]) + Wd[t-7] + σ0(Wd[t-15]) + Wd[t-16] (R177). -/
def shaExtend : Nat → List Word → List Word
  | 0, ws => ws
  | n + 1, ws =>
    shaExtend n ((shaSmall1 (ws.getD 1 0) + ws.getD 6 0 + shaSmall0 (ws.getD 14 0) + ws.getD 15 0) :: ws)

/-- The schedule Wd[0..63] of a block's sixteen words (R176, R177). -/
def shaSchedule (block : List Word) : List Word := (shaExtend 48 block.reverse).reverse

/-- The rounds, one for each pair of a constant and a schedule word (R177). -/
def shaRounds : ShaRegs → List Word → List Word → ShaRegs
  | r, k :: ks, w :: ws => shaRounds (shaRound r k w) ks ws
  | r, _, _ => r

/-- One block's compression (R177). -/
def shaCompress (h : ShaRegs) (block : List Word) : ShaRegs :=
  shaAdd h (shaRounds h shaK (shaSchedule block))

/-- A word of four bytes, big-endian (R176). -/
def shaWord (b0 b1 b2 b3 : Byte) : Word := b0 ++ b1 ++ b2 ++ b3

/-- A byte string as big-endian words (R176). -/
def shaWords : List Byte → List Word
  | b0 :: b1 :: b2 :: b3 :: rest => shaWord b0 b1 b2 b3 :: shaWords rest
  | _ => []

/-- BE64: the 64-bit big-endian encoding (R175). -/
def shaBE64 (n : Nat) : List Byte := (List.range 8).map (fun j => BitVec.ofNat 8 (n / 2 ^ (8 * (7 - j))))

/-- Pad(M) (R175): 0x80, then z = (55 - n) mod 64 zero bytes, then the length in bits. -/
def shaPad (m : List Byte) : List Byte :=
  m ++ [0x80] ++ List.replicate ((119 - m.length % 64) % 64) 0 ++ shaBE64 (8 * m.length)

/-- The first `n` blocks of sixteen words, each compressed in order (R177). -/
def shaBlocks : Nat → ShaRegs → List Word → ShaRegs
  | 0, h, _ => h
  | n + 1, h, ws => shaBlocks n (shaCompress h (ws.take 16)) (ws.drop 16)

/-- The final hash value of a message (R175 to R177). -/
def shaHash (m : List Byte) : ShaRegs :=
  shaBlocks ((shaPad m).length / 64) shaInit (shaWords (shaPad m))

/-- The four bytes of a word, big-endian (R178). -/
def shaWordBytes (x : Word) : List Byte :=
  [x.extractLsb 31 24, x.extractLsb 23 16, x.extractLsb 15 8, x.extractLsb 7 0]

/-- The 32-byte digest H[0] ‖ ... ‖ H[7], each word big-endian (R178). -/
def sha256 (m : List Byte) : List Byte :=
  let h := shaHash m
  [h.a, h.b, h.c, h.d, h.e, h.f, h.g, h.h].flatMap shaWordBytes

end Sys2Proof.Machine
end

