-- ==== Sys2Proof/Syntax.lean ====
section
/-! DEFINITION. The eight commands, one constructor per row of spec/opcode_table.json (spec/30_encoding.md R92). A
command has no register, immediate or address field (R90, R91). -/

namespace Sys2Proof

/-- A legal command of the block. -/
inductive Instr where
  /-- OPEN: begin a session (45_session.md R211). -/
  | openSession
  /-- ABORT: abandon the session from any phase (45_session.md R212). -/
  | abort
  /-- ACQ_RNG: commit entropy from the RNG port (40_acquisition.md R113). -/
  | acqRng
  /-- ACQ_RAW: commit host-supplied entropy bytes (40_acquisition.md R114). -/
  | acqRaw
  /-- ACQ_COIN: commit encoded coin flips (40_acquisition.md R115). -/
  | acqCoin
  /-- ACQ_DICE: commit folded dice rolls (40_acquisition.md R116). -/
  | acqDice
  /-- DERIVE: slice the combined buffer into word indices (44_indexer.md R190). -/
  | derive
  /-- FINISH: end a session whose phrase has been read (45_session.md R213). -/
  | finish
  deriving DecidableEq, Repr

end Sys2Proof
end

