-- ==== Sys2Proof/WellFormed.lean ====
section
/-! DEFINITION. Which commands exist in a build (spec/30_encoding.md R95), and which builds meet the premises of
spec/00_scope.md R8 to R14 and spec/70_reset_and_hazards.md R276. -/

namespace Sys2Proof

/-- DICE_PRESENT = (W = 24) (00_scope.md R10). -/
def Build.dicePresent (b : Build) : Bool := b.w = .w24

/-- A command is well formed in a build when the build has it: ACQ_DICE only where DICE_PRESENT = 1 (30_encoding.md
R93, R95), every other command always. -/
def Instr.wf (b : Build) : Instr → Bool
  | .acqDice => b.dicePresent
  | .openSession | .abort | .acqRng | .acqRaw | .acqCoin | .derive | .finish => true

/-- A dictionary word is a string of 1 to WORD_BYTES bytes, each a lowercase ASCII letter 0x61..0x7A (00_scope.md
R12). -/
def wordOk (wordBytes : Nat) (w : List Byte) : Bool :=
  decide (1 ≤ w.length) && decide (w.length ≤ wordBytes) && w.all (fun c => decide (0x61 ≤ c ∧ c ≤ 0x7A))

/-- What is known of DICT keeps to 00_scope.md R12: indices below 2048, none listed twice, words of letters, pairwise
distinct. -/
def dictEntriesOk (wordBytes : Nat) (d : List (Nat × List Byte)) : Bool :=
  d.all (fun e => decide (e.1 < 2048) && wordOk wordBytes e.2) &&
    decide (d.Pairwise (fun x y => x.1 ≠ y.1 ∧ x.2 ≠ y.2))

/-- A HASH has HASH_LEN ≥ CSUM_BITS output bits (00_scope.md R11); SHA-256 has 256. -/
def HashChoice.ok (csumBits : Nat) : HashChoice → Bool
  | .sha256 => true
  | .pluggable n => decide (csumBits ≤ n)

/-- CSUM_BITS = W / 3 (00_scope.md R9), as the premise on HASH_LEN needs it. -/
def WordCount.third : WordCount → Nat
  | .w3 => 1 | .w6 => 2 | .w9 => 3 | .w12 => 4 | .w15 => 5 | .w18 => 6 | .w21 => 7 | .w24 => 8

/-- The checkable premises on a build: WORD_BYTES in 1..16 (R13), BASE a multiple of 4096 (R14), HASH_LEN ≥ CSUM_BITS
(R11), and the known dictionary entries (R12). The block checks none of them (70_reset_and_hazards.md R276). -/
def Build.wf (b : Build) : Bool :=
  decide (1 ≤ b.wordBytes) && decide (b.wordBytes ≤ 16) && decide (b.base % 4096 = 0) &&
    b.hash.ok b.w.third && dictEntriesOk b.wordBytes b.dict

end Sys2Proof
end

