-- ==== Sys2Proof/Machine/Params.lean ====
section
/-! DEFINITION. The derived sizes of a build (spec/00_scope.md R9, R10), its two constant registers (spec/10_state.md
R21, R22), and the parameters HASH and DICT as functions (spec/00_scope.md R11, R12). -/

namespace Sys2Proof.Machine

/-- W as a number (00_scope.md R7, R8). -/
def wordCount : WordCount → Nat
  | .w3 => 3 | .w6 => 6 | .w9 => 9 | .w12 => 12 | .w15 => 15 | .w18 => 18 | .w21 => 21 | .w24 => 24

/-- TOTAL_BITS = 11 * W (00_scope.md R9). -/
def totalBits (w : WordCount) : Nat := 11 * wordCount w

/-- CSUM_BITS = TOTAL_BITS / 33 (00_scope.md R9). -/
def csumBits (w : WordCount) : Nat := totalBits w / 33

/-- ENT_BITS = TOTAL_BITS - CSUM_BITS (00_scope.md R9). -/
def entBits (w : WordCount) : Nat := totalBits w - csumBits w

/-- ENT_BYTES = ENT_BITS / 8 (00_scope.md R9). -/
def entBytes (w : WordCount) : Nat := entBits w / 8

/-- ROLLS = (W - 1) * 4 + 3 (00_scope.md R9). -/
def rolls (w : WordCount) : Nat := (wordCount w - 1) * 4 + 3

/-- The ID constant (10_state.md R21). -/
def idWord : Word := 0x42390001

/-- The CFG value of a build, field by field (10_state.md R22). -/
def cfgWord (b : Build) : Word :=
  BitVec.ofNat 32 (wordCount b.w + csumBits b.w * 2 ^ 8 + entBits b.w * 2 ^ 16 + b.dicePresent.toNat * 2 ^ 28)

/-- HASH as the bit sequence of its digest (00_scope.md R11, 43_sha256.md R178): SHA-256's digest bytes in order, or
HASH_LEN free bits (log 3). -/
def hashBits (b : Build) (m : List Byte) : List Bool :=
  match b.hash with
  | .sha256 => bitsOf (sha256 m)
  | .pluggable n => (List.range n).map (Config.hashBit m)

/-- DICT(x) (00_scope.md R12, 20_memory.md R65): the known word of the index, else a free value (log 2). -/
def dictWord (b : Build) (x : Nat) : List Byte := (b.dict.lookup x).getD (Config.dictRom x)

end Sys2Proof.Machine
end

