-- ==== Sys2Proof/Machine/Checksum.lean ====
section
/-! DEFINITION. The checksum appender (spec/42_checksum.md). -/

namespace Sys2Proof.Machine

/-- Checksum(E): the CSUM_BITS most significant digest bits of the entropy bytes (42_checksum.md R160). -/
def checksum (b : Build) (e : List Bool) : Nat := uint ((hashBits b (bytesOf e)).take (csumBits b.w))

/-- The CombinedBuffer: the entropy, then CSUM's CSUM_BITS bits (42_checksum.md R161, 10_state.md R34). -/
def combined (b : Build) (e : List Bool) (csum : BitVec 8) : List Bool := e ++ seqOf (csumBits b.w) csum.toNat

end Sys2Proof.Machine
end

