-- ==== Sys2Proof/Machine/State.lean ====
section
/-! DEFINITION. The state of the machine: every piece of state of spec/10_state.md, the build's parameters, and the
model's own record of what the outside world does. Faults, refusals and the state after reset (spec/10_state.md R44). -/

namespace Sys2Proof.Machine

/-- STATUS.PHASE (10_state.md R25). The codes 5..7 are never held, so no constructor stands for them. -/
inductive Phase where
  | idle | collecting | csumAppended | derived | done
  deriving DecidableEq, Repr

/-- STATUS.ERR (60_exceptions.md R240). The codes 7..15 are never produced, so no constructor stands for them. -/
inductive ErrCode where
  | ok | length | alphabet | illegalCmd | phase | fatalRng | fatalInv
  deriving DecidableEq, Repr

/-- What happens next at the block's boundary (log 5): a host access at a bus address (20_memory.md R61, R62), a point
at which the block may take its completion step (45_session.md R216), or reset (70_reset_and_hazards.md R270). -/
inductive Event where
  /-- The host reads `n` bytes at bus address `addr`. -/
  | read (addr n : Nat)
  /-- The host writes the `n` low bytes of `v` at bus address `addr`. -/
  | write (addr n : Nat) (v : Word)
  /-- The pending command, if there is one, completes here. -/
  | completion
  /-- The platform asserts reset. -/
  | reset
  deriving DecidableEq, Repr

/-- An answer the RNG agent has ready (20_memory.md R66, log 4): Exhausted, or bytes, of which those not listed are
free. -/
inductive RngAnswer where
  | exhausted
  | bytes (known : List Byte)
  deriving DecidableEq, Repr

/-- INBUF's bytes as (position, byte) pairs, positions strictly rising, no zero byte listed: an unlisted byte reads 0,
its reset content (10_state.md R31). -/
abbrev Memory := List Host.Cell

/-- The machine. Fields `phase` to `pending` are the block's state; `build` is its configuration; the last five are the
model's own (logs 4 to 7, 13). -/
structure State where
  /-- The build parameters (10_state.md R45). -/
  build : Build
  /-- STATUS.PHASE (10_state.md R25). -/
  phase : Phase
  /-- STATUS.ERR (10_state.md R27). -/
  err : ErrCode
  /-- STATUS.FATAL (10_state.md R28). -/
  fatal : Bool
  /-- ERRINFO[15:0] (10_state.md R29). -/
  errinfo : BitVec 16
  /-- INLEN[8:0] (10_state.md R30). -/
  inlen : BitVec 9
  /-- INBUF (10_state.md R31). -/
  inbuf : Memory
  /-- EBUF, ENT_BITS bits (10_state.md R32). -/
  ebuf : List Bool
  /-- CSUM, its CSUM_BITS ≤ 8 bits (10_state.md R33, log 16). -/
  csum : BitVec 8
  /-- IDX[0..23] (10_state.md R35). -/
  idx : Vector (BitVec 11) 24
  /-- WSEL[4:0] (10_state.md R36). -/
  wsel : BitVec 5
  /-- PENDING (10_state.md R38). STATUS.BUSY = 1 exactly when this is not none. -/
  pending : Option Word
  /-- What happens next, in order (log 5). -/
  schedule : List Event
  /-- The values returned to host reads so far, newest first (log 13). -/
  readLog : List Word
  /-- The RNG agent's next answers, oldest first (log 4). -/
  rngReady : List RngAnswer
  /-- The RNG requests made so far (log 4). -/
  rngRequests : Nat
  /-- The busy STATUS reads and possible self-check failures so far (logs 6, 7). -/
  draws : Nat
  deriving DecidableEq, Repr

/-- Why the machine is stuck. -/
inductive Fault where
  /-- Raised by a host access to the window that the block does not admit (20_memory.md R64, 93_implementation_defined.md
  U4: "no step"). Safe: no run goes through it. Log 8. -/
  | notAdmitted
  deriving DecidableEq, Repr

/-- Why the model admits no run through a step. -/
inductive Refusal where
  /-- Raised by exec's arm of a command that has no meaning yet. Safe. -/
  | notModelled (mnemonic : String)
  /-- Raised by a host access other than a STATUS read while BUSY = 1 (70_reset_and_hazards.md R280: "refused by the
  model"). Safe: no run goes through it. Log 9. -/
  | busyHazard
  deriving DecidableEq, Repr

/-- An EBUF of ENT_BITS zero bits (10_state.md R32). -/
def zeroEntropy (b : Build) : List Bool := List.replicate (entBits b.w) false

/-- IDX[0..23] all zero (10_state.md R35). -/
def zeroIdx : Vector (BitVec 11) 24 := Vector.replicate 24 0

/-- The machine right after reset, in the reference build (10_state.md R44), nothing scheduled and nothing drawn
(log 22). -/
def State.reset : State :=
  { build := Build.reference, phase := .idle, err := .ok, fatal := false, errinfo := 0, inlen := 0, inbuf := [],
    ebuf := zeroEntropy Build.reference, csum := 0, idx := zeroIdx, wsel := 0, pending := none, schedule := [],
    readLog := [], rngReady := [], rngRequests := 0, draws := 0 }

end Sys2Proof.Machine
end

