-- ==== Sys2Proof/Machine/Flags.lean ====
section
/-! DEFINITION. The block's only flags: the STATUS fields and how a read assembles them (spec/10_state.md R24 to R28,
spec/45_session.md R217). No arithmetic result sets a flag (R40). -/

namespace Sys2Proof.Machine

/-- The PHASE code (10_state.md R25). -/
def phaseCode : Phase → Nat
  | .idle => 0 | .collecting => 1 | .csumAppended => 2 | .derived => 3 | .done => 4

/-- The ERR code (60_exceptions.md R240). -/
def errCode : ErrCode → Nat
  | .ok => 0 | .length => 1 | .alphabet => 2 | .illegalCmd => 3 | .phase => 4 | .fatalRng => 5 | .fatalInv => 6

/-- STATUS.BUSY: 1 exactly when PENDING ≠ none (10_state.md R38, log 15). -/
def State.busy (s : State) : Bool := s.pending.isSome

/-- STATUS = {FATAL, ERR, BUSY, PHASE} as bits [8], [7:4], [3], [2:0] (10_state.md R24). -/
def statusWord (s : State) : Word :=
  BitVec.ofNat 32 (s.fatal.toNat * 2 ^ 8 + errCode s.err * 2 ^ 4 + s.busy.toNat * 2 ^ 3 + phaseCode s.phase)

/-- STATUS as a host read returns it: exact when not busy; while busy bit [3] is 1, bits [8:4] and [2:0] are free and
the rest read 0 (45_session.md R217, log 6). -/
def statusRead (s : State) : Word :=
  if s.busy then (Config.busyStatus s.draws &&& 0x1F7) ||| 0x008 else statusWord s

end Sys2Proof.Machine
end

