-- ==== Sys2Proof/Machine/Ops.lean ====
section
/-! DEFINITION. The named operations over the block's memory and registers, the ways a command ends (success, `raise
Err`, the fatal entry), and the RNG port (spec/20_memory.md R62, R66; spec/40_acquisition.md R112;
spec/60_exceptions.md R244, R246). -/

namespace Sys2Proof.Machine

/-! ### INBUF -/

/-- The canonical form of INBUF's list: positions strictly rising and below 256, no byte equal to what an unlisted
position reads as. -/
abbrev Memory.wf (m : Memory) : Prop :=
  m.Pairwise (fun x y => x.1 < y.1) ∧ ∀ x ∈ m, x.1 < 256 ∧ x.2 ≠ 0

/-- The byte at a position; 0 where nothing is listed (10_state.md R31). -/
def Memory.read (m : Memory) (k : Nat) : Byte := (m.lookup k).getD 0

/-- Write one byte, keeping the canonical form: a zero byte is not listed. -/
def Memory.write : Memory → Nat → Byte → Memory
  | [], k, b => if b = 0 then [] else [(k, b)]
  | (x, y) :: rest, k, b =>
    if k < x then (if b = 0 then (x, y) :: rest else (k, b) :: (x, y) :: rest)
    else if k = x then (if b = 0 then rest else (k, b) :: rest)
    else (x, y) :: Memory.write rest k b

/-- Byte lane `j` of a bus word: `v[8j+7 : 8j]` (20_memory.md R67). -/
def byteLane (v : Word) (j : Nat) : Byte := v.extractLsb' (8 * j) 8

/-- Write `n` byte lanes from position `k` on (20_memory.md R62). -/
def Memory.store (m : Memory) (k n : Nat) (v : Word) : Memory :=
  (List.range n).foldl (fun m j => Memory.write m (k + j) (byteLane v j)) m

/-- `INBUF[k]`. -/
def State.inbufByte (s : State) (k : Nat) : Byte := Memory.read s.inbuf k

/-! ### IDX -/

/-- `IDX[i]`; the registers end at 23 (10_state.md R35). -/
def State.idxAt (s : State) (i : Nat) : BitVec 11 := if h : i < 24 then s.idx[i] else 0

/-! ### How a command ends -/

/-- `raise Err(code, info)`: ERR and ERRINFO, and nothing else (60_exceptions.md R244). -/
def State.raiseErr (s : State) (code : ErrCode) (info : Nat) : State :=
  { s with err := code, errinfo := BitVec.ofNat 16 info }

/-- `raise Err(E_PHASE, PHASE)` (45_session.md R210). -/
def State.phaseError (s : State) : State := s.raiseErr .phase (phaseCode s.phase)

/-- A command's success: the next phase, ERR = E_OK, ERRINFO = 0 (60_exceptions.md R244). -/
def State.succeed (s : State) (p : Phase) : State := { s with phase := p, err := .ok, errinfo := 0 }

/-- zeroize(INBUF, INLEN) (00_scope.md R18). -/
def State.clearInput (s : State) : State := { s with inbuf := [], inlen := 0 }

/-- zeroize(EBUF, CSUM, IDX[0..23], WSEL) (00_scope.md R18). -/
def State.clearPhrase (s : State) : State :=
  { s with ebuf := zeroEntropy s.build, csum := 0, idx := zeroIdx, wsel := 0 }

/-- FatalEntry(code), the one entry into the fatal state: zeroize everything, PHASE = IDLE, FATAL = 1, ERR = code,
ERRINFO = 0 (60_exceptions.md R246). Nothing is saved and nothing returns: only reset leaves the fatal state (R245,
10_state.md R28). -/
def State.fatalEntry (s : State) (code : ErrCode) : State :=
  { s.clearInput.clearPhrase with phase := .idle, fatal := true, err := code, errinfo := 0 }

/-- A command's effect `t`, taken only with FATAL = 0: "when FATAL = 1 it is dropped like every command" (45_session.md
R212, 10_state.md R28, log 11). -/
def State.unlessFatal (s t : State) : State := if s.fatal then s else t

/-- PENDING <- none, and with it BUSY <- 0 (45_session.md R216). -/
def State.clearPending (s : State) : State := { s with pending := none }

/-! ### Reset -/

/-- The block of a build right after reset, with what the outside world does next left as it is in `s`: the table of
10_state.md R44; reset changes no build parameter and does not touch the RNG (70_reset_and_hazards.md R270, R273). -/
def State.resetFrom (s : State) : State :=
  { build := s.build, phase := .idle, err := .ok, fatal := false, errinfo := 0, inlen := 0, inbuf := [],
    ebuf := zeroEntropy s.build, csum := 0, idx := zeroIdx, wsel := 0, pending := none, schedule := s.schedule,
    readLog := s.readLog, rngReady := s.rngReady, rngRequests := s.rngRequests, draws := s.draws }

/-! ### The RNG port -/

/-- The bytes of an RNG answer of `n` bytes: the known ones first, each other byte free (20_memory.md R66, log 4). -/
def rngBytes (request n : Nat) (known : List Byte) : List Byte :=
  (List.range n).map (fun k => (known[k]?).getD (Config.rngByte request k))

/-- The oracle's answer to the next request RngRead(ENT_BYTES): none for Exhausted (20_memory.md R66, 00_scope.md
R15). The queue's head where there is one, else a free value (log 4). -/
def State.rngAnswer (s : State) : Option (List Byte) :=
  match s.rngReady with
  | .exhausted :: _ => none
  | .bytes known :: _ => some (rngBytes s.rngRequests (entBytes s.build.w) known)
  | [] =>
    if Config.rngExhausted s.rngRequests then none
    else some (rngBytes s.rngRequests (entBytes s.build.w) [])

/-- The state after one request: the answer is used up. -/
def State.rngUsed (s : State) : State :=
  { s with rngReady := s.rngReady.tail, rngRequests := s.rngRequests + 1 }

/-- One free value drawn (logs 6, 7). -/
def State.drawn (s : State) : State := { s with draws := s.draws + 1 }

/-! ### Registers the host writes -/

/-- INLEN <- v[8:0] (10_state.md R30, 30_encoding.md R91). -/
def State.setInlen (s : State) (v : Word) : State := { s with inlen := v.extractLsb 8 0 }

/-- WSEL <- v[4:0] (10_state.md R36, 30_encoding.md R91). -/
def State.setWsel (s : State) (v : Word) : State := { s with wsel := v.extractLsb 4 0 }

/-- INBUF takes `n` byte lanes from position `k` on (20_memory.md R62). -/
def State.storeInput (s : State) (k n : Nat) (v : Word) : State := { s with inbuf := Memory.store s.inbuf k n v }

/-- PENDING <- c, and with it BUSY <- 1 (45_session.md R215). -/
def State.issue (s : State) (c : Word) : State := { s with pending := some c }

/-- The host has the value `v` (log 13). -/
def State.logRead (s : State) (v : Word) : State := { s with readLog := v :: s.readLog }

/-- What is scheduled after the event taken (log 5). -/
def State.withSchedule (s : State) (es : List Event) : State := { s with schedule := es }

end Sys2Proof.Machine
end

