-- ==== Sys2Proof/Machine/Indexer.lean ====
section
/-! DEFINITION. The word-index bit-slicer and the dictionary read window (spec/44_indexer.md R190, R193). -/

namespace Sys2Proof.Machine

/-- IDX[i] as DERIVE computes it: uint(CB⟨11i .. 11i+10⟩) (44_indexer.md R190). -/
def sliceIndex (cb : List Bool) (i : Nat) : BitVec 11 := BitVec.ofNat 11 (uint (slice cb (11 * i) 11))

/-- IDX[0..23] after DERIVE: the W slices; DERIVE does not write the registers from W on (44_indexer.md R190,
10_state.md R35). -/
def deriveIdx (b : Build) (e : List Bool) (csum : BitVec 8) (old : Vector (BitVec 11) 24) : Vector (BitVec 11) 24 :=
  Vector.ofFn (fun i : Fin 24 => if i.val < wordCount b.w then sliceIndex (combined b e csum) i.val else old[i])

/-- DERIVE (44_indexer.md R190). -/
def execDerive (s : State) : Host.Outcome State Fault Refusal :=
  .next (s.unlessFatal (
    if s.phase ≠ .csumAppended then s.phaseError
    else ({ s with idx := deriveIdx s.build s.ebuf s.csum s.idx } : State).succeed .derived))

/-- The word WORDn packs: characters 4n .. 4n+3 of a dictionary word, the first in the low byte, zero past the word's
end (44_indexer.md R193). -/
def packChars (w : List Byte) (n : Nat) : Word :=
  w.getD (4 * n + 3) 0 ++ w.getD (4 * n + 2) 0 ++ w.getD (4 * n + 1) 0 ++ w.getD (4 * n) 0

/-- A read of WORDn (44_indexer.md R193). -/
def wordWindow (s : State) (n : Nat) : Word :=
  if s.phase ≠ .derived ∨ wordCount s.build.w ≤ s.wsel.toNat then 0
  else packChars (dictWord s.build (s.idxAt s.wsel.toNat).toNat) n

end Sys2Proof.Machine
end

