-- ==== Sys2Proof/Machine/Bus.lean ====
section
/-! DEFINITION. The host's accesses to the register window: the address map, which accesses are admitted, every register
read and every register write (spec/10_state.md, spec/20_memory.md R61 to R64, spec/45_session.md R214, R215, R222). -/

namespace Sys2Proof.Machine

/-- The locations of the window: the register table of 10_state.md. -/
inductive Reg where
  | id | cfg | cmd | status | errinfo | inlen | csum | wsel
  /-- WORDn, n = 0..3. -/
  | word (n : Nat)
  /-- IDX[i], i = 0..23. -/
  | idx (i : Nat)
  /-- INBUF[k], k = 0..255. -/
  | inbuf (k : Nat)
  | reserved
  deriving DecidableEq, Repr

/-- The location at a window offset (10_state.md, the register table; 20_memory.md R63). -/
def regAt (off : Nat) : Reg :=
  if off = 0x000 then .id
  else if off = 0x004 then .cfg
  else if off = 0x008 then .cmd
  else if off = 0x00C then .status
  else if off = 0x010 then .errinfo
  else if off = 0x014 then .inlen
  else if off = 0x018 then .csum
  else if off = 0x01C then .wsel
  else if 0x020 ≤ off ∧ off < 0x030 then .word ((off - 0x020) / 4)
  else if 0x100 ≤ off ∧ off < 0x160 then .idx ((off - 0x100) / 4)
  else if 0x400 ≤ off ∧ off < 0x500 then .inbuf (off - 0x400)
  else .reserved

/-- Whether an access has a byte in the window BASE .. BASE+0xFFF; any other is not an access to the block (20_memory.md
R61, log 10). -/
def touchesWindow (b : Build) (addr n : Nat) : Bool :=
  decide (addr < b.base + 0x1000) && decide (b.base < addr + max n 1)

/-- The admitted accesses by window offset and width: inside INBUF 1, 2 and 4 bytes naturally aligned, elsewhere 4 bytes
aligned (20_memory.md R62, R64). -/
def admittedAt (off n : Nat) : Bool :=
  if 0x400 ≤ off ∧ off + n ≤ 0x500 then (n = 1 || n = 2 || n = 4) && off % n = 0
  else decide (off < 0x1000) && n = 4 && off % 4 = 0

/-- The admitted accesses by bus address: offset = address - BASE (20_memory.md R61). -/
def admitted (b : Build) (addr n : Nat) : Bool := decide (b.base ≤ addr) && admittedAt (addr - b.base) n

/-- The value of a register read (45_session.md R222): INBUF, CMD and reserved offsets read 0; STATUS as R217 while
busy. -/
def readReg (s : State) : Reg → Word
  | .id => idWord
  | .cfg => cfgWord s.build
  | .cmd => 0
  | .status => statusRead s
  | .errinfo => s.errinfo.setWidth 32
  | .inlen => s.inlen.setWidth 32
  | .csum => s.csum.setWidth 32
  | .wsel => s.wsel.setWidth 32
  | .word n => wordWindow s n
  | .idx i => if i < wordCount s.build.w then (s.idxAt i).setWidth 32 else 0
  | .inbuf _ => 0
  | .reserved => 0

/-- The effect of an admitted write with FATAL = 0 and BUSY = 0 (45_session.md R214, R215; 20_memory.md R62). -/
def writeReg (s : State) (r : Reg) (n : Nat) (v : Word) : State :=
  match r with
  | .cmd => s.issue v
  | .inlen => if s.phase = .collecting then s.setInlen v else s
  | .wsel => s.setWsel v
  | .inbuf k => if s.phase = .collecting then s.storeInput k n v else s
  | .id | .cfg | .status | .errinfo | .csum | .word _ | .idx _ | .reserved => s

/-- What every access to the window must meet first: admitted (20_memory.md R64, log 8), and, while busy, a STATUS read
(70_reset_and_hazards.md R280, log 9). An access outside the window passes by the block (20_memory.md R61, log 10). -/
def onWindow (s : State) (addr n : Nat) (busyOk : Bool) (t : State) : Host.Outcome State Fault Refusal :=
  if !touchesWindow s.build addr n then .next s
  else if !admitted s.build addr n then .fault .notAdmitted
  else if s.busy && !busyOk then .refused .busyHazard
  else .next t

/-- A read of STATUS while busy takes a free value (45_session.md R217, log 6). -/
def State.statusDrawn (s : State) (r : Reg) : State := if s.busy && r = .status then s.drawn else s

/-- A host read: the value goes to the host and no register changes (20_memory.md R72). -/
def hostRead (s : State) (addr n : Nat) : Host.Outcome State Fault Refusal :=
  onWindow s addr n (regAt (addr - s.build.base) = .status)
    ((s.statusDrawn (regAt (addr - s.build.base))).logRead (readReg s (regAt (addr - s.build.base))))

/-- A host write: ignored with FATAL = 1 (10_state.md R28), else the register's rule (45_session.md R214). -/
def hostWrite (s : State) (addr n : Nat) (v : Word) : Host.Outcome State Fault Refusal :=
  onWindow s addr n false (if s.fatal then s else writeReg s (regAt (addr - s.build.base)) n v)

end Sys2Proof.Machine
end

