-- ==== Sys2Proof/Decode.lean ====
section
/-! DEFINITION. The command decoder of spec/30_encoding.md R93, total on every 32-bit word, which rejects by name, and
the encoder of R92 after it. -/

namespace Sys2Proof

/-- Why a word is no command (30_encoding.md R94). -/
inductive Illegal where
  /-- A nonzero bit in [31:8]. -/
  | reservedBits
  /-- An OP that is none of the eight, 0x00 among them. -/
  | unknownOp
  /-- OP 0x13 in a build with DICE_PRESENT = 0 (R95). -/
  | diceAbsent
  /-- Not four bytes: there is one command length (R97). -/
  | badLength
  deriving DecidableEq, Repr

/-- What the decoder answers: a command, or Illegal with its reason. -/
inductive Decoded where
  | legal (i : Instr)
  | illegal (why : Illegal)
  deriving DecidableEq, Repr

/-- The command of an OP field, bits [7:0] (30_encoding.md R92, R93). -/
def decodeOp (dice : Bool) (op : BitVec 8) : Decoded :=
  if op = 0x01 then .legal .openSession
  else if op = 0x02 then .legal .abort
  else if op = 0x10 then .legal .acqRng
  else if op = 0x11 then .legal .acqRaw
  else if op = 0x12 then .legal .acqCoin
  else if op = 0x13 then (if dice then .legal .acqDice else .illegal .diceAbsent)
  else if op = 0x20 then .legal .derive
  else if op = 0x30 then .legal .finish
  else .illegal .unknownOp

/-- decode(c) of 30_encoding.md R93. `dice` is DICE_PRESENT, the one thing that changes decoding (R97). -/
def decode (dice : Bool) (c : Word) : Decoded :=
  if c.extractLsb 31 8 ≠ 0 then .illegal .reservedBits else decodeOp dice (c.extractLsb 7 0)

/-- The 32-bit word of four bytes in bus order, the least significant at the lowest offset (20_memory.md R67). -/
def wordOfBytes (b0 b1 b2 b3 : Byte) : Word := b3 ++ b2 ++ b1 ++ b0

/-- The decoder on bytes as the bus carries them. A command is one 32-bit access (R97): any other length is rejected. -/
def decodeBytes (dice : Bool) : List Byte → Decoded
  | [b0, b1, b2, b3] => decode dice (wordOfBytes b0 b1 b2 b3)
  | _ => .illegal .badLength

/-- The four bytes of a word in bus order (20_memory.md R67). -/
def bytesOfWord (c : Word) : List Byte :=
  [c.extractLsb 7 0, c.extractLsb 15 8, c.extractLsb 23 16, c.extractLsb 31 24]

/-- The command an instruction's bits give in the reference build, where DICE_PRESENT = 1. The `nbits` low bits of `w`
are laid out as the bus carries them, the bits above are zero, and the decoder reads them; a value that needs more than
the one 32-bit word is no command (R97). -/
def decodeTableWord (nbits w : Nat) : Option Instr :=
  if w % 2 ^ nbits < 2 ^ 32 then
    match decodeBytes true (bytesOfWord (BitVec.ofNat 32 (w % 2 ^ nbits))) with
    | .legal i => some i
    | .illegal _ => none
  else none

/-- The command word of each command, from the table of 30_encoding.md R92. -/
def encode : Instr → Word
  | .openSession => 0x00000001
  | .abort => 0x00000002
  | .acqRng => 0x00000010
  | .acqRaw => 0x00000011
  | .acqCoin => 0x00000012
  | .acqDice => 0x00000013
  | .derive => 0x00000020
  | .finish => 0x00000030

end Sys2Proof
end

