-- ==== Sys2Proof/Machine/Coin.lean ====
section
/-! DEFINITION. The coin encoder (spec/40_acquisition.md R117). -/

namespace Sys2Proof.Machine

/-- A symbol of the H class, upper or lower case; the other validated symbols are T's (40_acquisition.md R117). -/
def isHeads (c : Byte) : Bool := c = 0x48 || c = 0x68

/-- CoinEncode of `n` symbols: symbol k gives position k, H → 1, T → 0 (40_acquisition.md R117). -/
def coinEncode (n : Nat) (sym : Nat → Byte) : List Bool := (List.range n).map (fun k => isHeads (sym k))

end Sys2Proof.Machine
end

