-- ==== Sys2Proof/Machine/Dice.lean ====
section
/-! DEFINITION. The dice-roll bit-fold encoder (spec/41_dice_fold.md). -/

namespace Sys2Proof.Machine

/-- The value of a roll symbol: INBUF[k] - 0x30 (40_acquisition.md R116). -/
def rollValue (c : Byte) : Nat := (c - 0x30).toNat

/-- The 3-bit roll code `seq_3(v - 1)` (41_dice_fold.md R140). -/
def rollCode (v : Nat) : List Bool := seqOf 3 (v - 1)

/-- The raw 12-bit group as a sequence (41_dice_fold.md R141). -/
def rawGroup (a b c d : Nat) : List Bool := rollCode a ++ rollCode b ++ rollCode c ++ rollCode d

/-- The raw group as an integer R (41_dice_fold.md R141). -/
def rawValue (a b c d : Nat) : Nat := 512 * (a - 1) + 64 * (b - 1) + 8 * (c - 1) + (d - 1)

/-- Fold: the kept bits R[11:1], complemented where the decision bit R[0] is 1 (41_dice_fold.md R142, R143). -/
def fold (a b c d : Nat) : Nat :=
  if rawValue a b c d % 2 = 1 then 0x7FF - rawValue a b c d / 2 else rawValue a b c d / 2

/-- Trail(v) = (v ≥ 4) (41_dice_fold.md R144). -/
def trail (v : Nat) : Bool := decide (4 ≤ v)

/-- DiceEncode of the rolls `r` for word count `w`: w - 1 groups of four rolls, 11 bits each, then three trailing rolls,
one bit each (41_dice_fold.md R145). -/
def diceEncode (w : Nat) (r : Nat → Nat) : List Bool :=
  (List.range (w - 1)).flatMap
      (fun g => seqOf 11 (fold (r (4 * g)) (r (4 * g + 1)) (r (4 * g + 2)) (r (4 * g + 3)))) ++
    (List.range 3).map (fun j => trail (r (4 * (w - 1) + j)))

end Sys2Proof.Machine
end

