-- ==== Sys2Proof/Machine/Operands.lean ====
section
/-! DEFINITION. The implicit operands of the input commands: required lengths, alphabets and `Validate`
(spec/40_acquisition.md R110, R111). -/

namespace Sys2Proof.Machine

/-- Every byte is legal raw entropy (40_acquisition.md R110, ACQ_RAW). -/
def legalRaw (_ : Byte) : Bool := true

/-- The coin alphabet H, h, T, t (40_acquisition.md R110, ACQ_COIN). -/
def legalCoin (c : Byte) : Bool := c = 0x48 || c = 0x68 || c = 0x54 || c = 0x74

/-- The dice alphabet 1..6 (40_acquisition.md R110, ACQ_DICE). -/
def legalDice (c : Byte) : Bool := decide (0x31 ≤ c) && decide (c ≤ 0x36)

/-- The lowest position below `req` whose INBUF byte is illegal, if any (40_acquisition.md R111). -/
def firstIllegal (s : State) (req : Nat) (legal : Byte → Bool) : Option Nat :=
  (List.range req).find? (fun k => !legal (s.inbufByte k))

/-- Validate(req, legal): the error it raises with its ERRINFO, or none where the whole input is valid. Length first,
then the lowest illegal position (40_acquisition.md R111). -/
def validate (s : State) (req : Nat) (legal : Byte → Bool) : Option (ErrCode × Nat) :=
  if s.inlen.toNat ≠ req then some (.length, req)
  else (firstIllegal s req legal).map (fun k => (.alphabet, k))

end Sys2Proof.Machine
end

