-- ==== Sys2Proof/Machine/Acquire.lean ====
section
/-! DEFINITION. The entropy acquisition commands (spec/40_acquisition.md R112 to R116). -/

namespace Sys2Proof.Machine

/-- Commit(E): EBUF, CSUM, the input zeroed, PHASE = CSUM_APPENDED, E_OK, as one step (40_acquisition.md R112). -/
def State.commit (s : State) (e : List Bool) : State :=
  { s.clearInput with
    ebuf := e, csum := BitVec.ofNat 8 (checksum s.build e), phase := .csumAppended, err := .ok, errinfo := 0 }

/-- The shape of the three host-input commands: the phase, then Validate, then Commit (40_acquisition.md R114 to R116;
the order is 60_exceptions.md R243). -/
def State.acquireInput (s : State) (req : Nat) (legal : Byte → Bool) (e : List Bool) : State :=
  if s.phase ≠ .collecting then s.phaseError
  else
    match validate s req legal with
    | some (code, info) => s.raiseErr code info
    | none => s.commit e

/-- ACQ_RNG (40_acquisition.md R113): the phase, then one RNG request; its bytes are committed, or Exhausted takes the
fatal entry. -/
def execAcqRng (s : State) : Host.Outcome State Fault Refusal :=
  .next (s.unlessFatal (
    if s.phase ≠ .collecting then s.phaseError
    else
      match s.rngAnswer with
      | none => s.rngUsed.fatalEntry .fatalRng
      | some b => s.rngUsed.commit (bitsOf b)))

/-- ACQ_RAW (40_acquisition.md R114): ENT_BYTES entropy bytes of INBUF. -/
def execAcqRaw (s : State) : Host.Outcome State Fault Refusal :=
  .next (s.unlessFatal (s.acquireInput (entBytes s.build.w) legalRaw
    (bitsOf ((List.range (entBytes s.build.w)).map s.inbufByte))))

/-- ACQ_COIN (40_acquisition.md R115): ENT_BITS coin symbols of INBUF. -/
def execAcqCoin (s : State) : Host.Outcome State Fault Refusal :=
  .next (s.unlessFatal (s.acquireInput (entBits s.build.w) legalCoin
    (coinEncode (entBits s.build.w) s.inbufByte)))

/-- ACQ_DICE (40_acquisition.md R116): illegal in a build without dice (30_encoding.md R95); else ROLLS rolls of
INBUF, folded. -/
def execAcqDice (s : State) : Host.Outcome State Fault Refusal :=
  .next (s.unlessFatal (
    if !s.build.dicePresent then s.raiseErr .illegalCmd 0x0013
    else s.acquireInput (rolls s.build.w) legalDice
      (diceEncode (wordCount s.build.w) (fun k => rollValue (s.inbufByte k)))))

end Sys2Proof.Machine
end

