-- ==== Sys2Proof/Machine/Session.lean ====
section
/-! DEFINITION. The session commands (spec/45_session.md R211 to R213). -/

namespace Sys2Proof.Machine

/-- OPEN (45_session.md R211). -/
def execOpen (s : State) : Host.Outcome State Fault Refusal :=
  .next (s.unlessFatal (
    if s.phase = .idle ∨ s.phase = .done then s.clearInput.succeed .collecting else s.phaseError))

/-- ABORT (45_session.md R212). -/
def execAbort (s : State) : Host.Outcome State Fault Refusal :=
  .next (s.unlessFatal (s.clearInput.clearPhrase.succeed .idle))

/-- FINISH (45_session.md R213). -/
def execFinish (s : State) : Host.Outcome State Fault Refusal :=
  .next (s.unlessFatal (
    if s.phase = .derived then s.clearPhrase.succeed .done else s.phaseError))

end Sys2Proof.Machine
end

