-- ==== Sys2Proof/Machine/Dispatch.lean ====
section
/-! DEFINITION. One arm per command (spec/45_session.md R216). -/

namespace Sys2Proof.Machine

def exec (i : Instr) (s : State) : Host.Outcome State Fault Refusal :=
  match i with
  | .openSession => Sys2Proof.Machine.execOpen s
  | .abort => Sys2Proof.Machine.execAbort s
  | .acqRng => Sys2Proof.Machine.execAcqRng s
  | .acqRaw => Sys2Proof.Machine.execAcqRaw s
  | .acqCoin => Sys2Proof.Machine.execAcqCoin s
  | .acqDice => Sys2Proof.Machine.execAcqDice s
  | .derive => Sys2Proof.Machine.execDerive s
  | .finish => Sys2Proof.Machine.execFinish s

end Sys2Proof.Machine
end

