-- ==== Sys2Proof/Machine/Complete.lean ====
section
/-! DEFINITION. The block's own step: a pending command completes (spec/45_session.md R216, spec/60_exceptions.md
R247). -/

namespace Sys2Proof.Machine

/-- An illegal word's completion: E_ILLEGAL_CMD with the word's bits [15:0] (30_encoding.md R94). -/
def State.illegalCommand (s : State) (c : Word) : State := s.raiseErr .illegalCmd (c.extractLsb 15 0).toNat

/-- What the completion of the latched word `c` does before PENDING is cleared: decode, then the command's rule. -/
def runCommand (s : State) (c : Word) : Host.Outcome State Fault Refusal :=
  match decode s.build.dicePresent c with
  | .legal i => exec i s
  | .illegal _ => .next (s.illegalCommand c)

/-- PENDING <- none after a command's rule (45_session.md R216). -/
def finishCompletion : Host.Outcome State Fault Refusal → Host.Outcome State Fault Refusal
  | .next t => .next t.clearPending
  | .fault f => .fault f
  | .refused r => .refused r

/-- Whether an implementation self-check fails at this completion: only where the build admits it, and then as a free
value (60_exceptions.md R247, log 7). -/
def State.spuriousFatal (s : State) : Bool := s.build.allowSpuriousFatal && Config.selfCheckFails s.draws

/-- A completion that may fail its self-check has drawn that free value. -/
def State.selfChecked (s : State) : State := if s.build.allowSpuriousFatal then s.drawn else s

/-- The completion step (45_session.md R216). With nothing pending the block is idle and nothing happens
(60_exceptions.md R256). With FATAL = 1 a command is dropped (10_state.md R28, log 11). -/
def complete (s : State) : Host.Outcome State Fault Refusal :=
  match s.pending with
  | none => .next s
  | some c =>
    if s.fatal then .next s.clearPending
    else if s.spuriousFatal then .next (s.selfChecked.fatalEntry .fatalInv).clearPending
    else finishCompletion (runCommand s.selfChecked c)

end Sys2Proof.Machine
end

