-- ==== Sys2Proof/Machine/Run.lean ====
section
/-! DEFINITION. One step at the block's boundary: the scheduled host access, completion or reset (spec/60_exceptions.md
R250: "a host access, a completion, or reset"), and what the tests of the host place as a command. -/

namespace Sys2Proof.Machine

/-- One event, the rest of the schedule already in place. -/
def runEvent (s : State) : Event → Host.Outcome State Fault Refusal
  | .read addr n => hostRead s addr n
  | .write addr n v => hostWrite s addr n v
  | .completion => complete s
  | .reset => .next s.resetFrom

/-- The next event of the schedule; with nothing scheduled the pending command completes, for it "is always eventually
taken" (45_session.md R216, log 5). -/
def advance (s : State) : Host.Outcome State Fault Refusal :=
  match s.schedule with
  | [] => complete s
  | e :: rest => runEvent (s.withSchedule rest) e

/-- A command word latched as a CMD write latches it, its completion next (log 14). -/
def placeCommand (s : State) (c : Word) : State :=
  (s.issue c).withSchedule (.completion :: s.schedule)

end Sys2Proof.Machine
end

