-- ==== Sys2Proof/Machine/Script.lean ====
section
/-! DEFINITION. The host script of spec/30_encoding.md R98 and R99: its base instructions and pseudo-instructions as
lists of bus accesses. The host is outside the block; these lists are what it may put into `schedule`. -/

namespace Sys2Proof.Machine

/-- `WR off, v`: Write(off, 4, v) (30_encoding.md R98). -/
def scriptWR (b : Build) (off : Nat) (v : Word) : List Event := [.write (b.base + off) 4 v]

/-- `WRH off, v`: Write(off, 2, v), INBUF only (30_encoding.md R98). -/
def scriptWRH (b : Build) (off : Nat) (v : Word) : List Event := [.write (b.base + off) 2 v]

/-- `WRB off, v`: Write(off, 1, v), INBUF only (30_encoding.md R98). -/
def scriptWRB (b : Build) (off : Nat) (v : Word) : List Event := [.write (b.base + off) 1 v]

/-- `RD off`: Read(off, 4) (30_encoding.md R98). -/
def scriptRD (b : Build) (off : Nat) : List Event := [.read (b.base + off) 4]

/-- `CMD m`: WR 0x008, word(m) (30_encoding.md R98). -/
def scriptCMD (b : Build) (i : Instr) : List Event := scriptWR b 0x008 (encode i)

/-- `POLL` (30_encoding.md R99) as the accesses of one execution of its loop: `n` STATUS reads while busy, the
completion, and the read that sees BUSY = 0. The number is the host's to observe, not the block's (log 5). -/
def scriptPOLL (b : Build) (n : Nat) : List Event :=
  (List.replicate n (scriptRD b 0x00C)).flatten ++ [.completion] ++ scriptRD b 0x00C

/-- `RUN m` = CMD m ; POLL (30_encoding.md R99). -/
def scriptRUN (b : Build) (i : Instr) (n : Nat) : List Event := scriptCMD b i ++ scriptPOLL b n

/-- `SELWORD i` = WR 0x01C, i (30_encoding.md R99). -/
def scriptSELWORD (b : Build) (i : Nat) : List Event := scriptWR b 0x01C (BitVec.ofNat 32 i)

/-- The INBUF writes of LOADSYM from position `k` on: words of four symbols, then the remainder r = 1, 2 or 3
(30_encoding.md R99). -/
def scriptLoad (b : Build) : Nat → List Byte → List Event
  | k, s0 :: s1 :: s2 :: s3 :: rest => scriptWR b (0x400 + k) (s3 ++ s2 ++ s1 ++ s0) ++ scriptLoad b (k + 4) rest
  | k, [s0, s1, s2] =>
    scriptWRH b (0x400 + k) ((s1 ++ s0 : BitVec 16).setWidth 32) ++ scriptWRB b (0x400 + k + 2) (s2.setWidth 32)
  | k, [s0, s1] => scriptWRH b (0x400 + k) ((s1 ++ s0 : BitVec 16).setWidth 32)
  | k, [s0] => scriptWRB b (0x400 + k) (s0.setWidth 32)
  | _, [] => []

/-- `LOADSYM s` and `LOADRAW b0 .. b(n-1)`: the symbols, then INLEN (30_encoding.md R99). -/
def scriptLOADSYM (b : Build) (s : List Byte) : List Event :=
  scriptLoad b 0 s ++ scriptWR b 0x014 (BitVec.ofNat 32 s.length)

end Sys2Proof.Machine
end

