-- ==== Sys2Proof/Safety.lean ====
section
/-! DEFINITION. The terms claims use: the invariants of spec/10_state.md R43, the launch premise of
spec/70_reset_and_hazards.md R277, the outcome of a session of spec/45_session.md R223, the premise on DICT of
spec/00_scope.md R12, and what an event is. -/

namespace Sys2Proof.Machine

/-- The premise on DICT, known and free entries alike (00_scope.md R12, 70_reset_and_hazards.md R276): words of 1 to
WORD_BYTES lowercase letters, pairwise distinct. -/
def DictOk (b : Build) : Prop :=
  (∀ x < 2048, wordOk b.wordBytes (dictWord b x) = true) ∧
    ∀ x < 2048, ∀ y < 2048, dictWord b x = dictWord b y → x = y

/-- A phase in which EBUF holds committed entropy (10_state.md R25, R43 item 2). -/
def Phase.holdsEntropy : Phase → Bool
  | .csumAppended | .derived => true
  | .idle | .collecting | .done => false

/-- The state invariants. `input`, `entropy`, `indices` and `fatal` are items 1 to 4 of 10_state.md R43 (item 5 holds by
the type of `phase`); the others say that every register keeps its width and that what the phase promises is there. -/
structure State.Inv (s : State) : Prop where
  /-- Item 1: outside COLLECTING, INLEN and INBUF are zero. -/
  input : s.phase ≠ .collecting → s.inlen = 0 ∧ s.inbuf = []
  /-- Item 2: outside CSUM_APPENDED and DERIVED, EBUF and CSUM are zero. -/
  entropy : s.phase.holdsEntropy = false → s.ebuf = zeroEntropy s.build ∧ s.csum = 0
  /-- Item 3: outside DERIVED, every IDX is zero. -/
  indices : s.phase ≠ .derived → s.idx = zeroIdx
  /-- Item 4: with FATAL = 1 the block is IDLE with nothing pending and WSEL zero; items 1 to 3 then zero the rest. -/
  fatal : s.fatal = true → s.phase = .idle ∧ s.pending = none ∧ s.wsel = 0
  /-- INBUF's list keeps its canonical form. -/
  memory : Memory.wf s.inbuf
  /-- EBUF has exactly ENT_BITS bits (10_state.md R32). -/
  width : s.ebuf.length = entBits s.build.w
  /-- CSUM is below 2^CSUM_BITS (10_state.md R33). -/
  csumFits : s.csum.toNat < 2 ^ csumBits s.build.w
  /-- With entropy committed, CSUM is its checksum (42_checksum.md R160). -/
  csumIs : s.phase.holdsEntropy = true → s.csum.toNat = checksum s.build s.ebuf
  /-- In DERIVED, IDX[0..W-1] holds the slices of the combined buffer and the rest are zero (44_indexer.md R190, R194). -/
  idxIs : s.phase = .derived → s.idx = deriveIdx s.build s.ebuf s.csum zeroIdx

/-- What ERR and ERRINFO say together (60_exceptions.md R240, R241), and that the fatal codes stand exactly while
FATAL = 1 (R246). -/
structure State.ReportInv (s : State) : Prop where
  ok : s.err = .ok → s.errinfo = 0
  length : s.err = .length → s.errinfo.toNat ∈ [entBytes s.build.w, entBits s.build.w, rolls s.build.w]
  alphabet : s.err = .alphabet → s.errinfo.toNat < 256
  phase : s.err = .phase → s.errinfo.toNat ≤ 4
  fatalRng : s.err = .fatalRng → s.errinfo = 0
  fatalInv : s.err = .fatalInv → s.errinfo = 0
  fatal : s.fatal = true ↔ s.err = .fatalRng ∨ s.err = .fatalInv

/-- CleanEntry(s): the block is in the reset state (70_reset_and_hazards.md R277), whatever its build and whatever is
scheduled. -/
def State.CleanEntry (s : State) : Prop := s = s.resetFrom

/-- A session produced a phrase when the host reads STATUS with PHASE = DERIVED, BUSY = 0 and FATAL = 0 (45_session.md
R223). -/
def State.ProducedPhrase (s : State) : Prop := s.phase = .derived ∧ s.busy = false ∧ s.fatal = false

/-- The phrase: DICT(IDX[0]), ..., DICT(IDX[W-1]) (44_indexer.md R192). -/
def State.phrase (s : State) : List (List Byte) :=
  (List.range (wordCount s.build.w)).map (fun i => dictWord s.build (s.idxAt i).toNat)

/-- The rows of 45_session.md R210 whose outcome is E_OK: phase, command, next phase. -/
def sessionTable : List (Phase × Instr × Phase) :=
  [(.idle, .openSession, .collecting), (.idle, .abort, .idle),
    (.collecting, .acqRng, .csumAppended), (.collecting, .acqRaw, .csumAppended),
    (.collecting, .acqCoin, .csumAppended), (.collecting, .acqDice, .csumAppended), (.collecting, .abort, .idle),
    (.csumAppended, .derive, .derived), (.csumAppended, .abort, .idle),
    (.derived, .finish, .done), (.derived, .abort, .idle),
    (.done, .openSession, .collecting), (.done, .abort, .idle)]

/-- The 'input valid' of 45_session.md R210, command by command: the required length and alphabet of 40_acquisition.md
R110 for the host-input commands, an RNG that does not answer Exhausted for ACQ_RNG (20_memory.md R66, log 4). The other
commands take no input. -/
def State.inputValid (s : State) : Instr → Prop
  | .acqRng => s.rngAnswer ≠ none
  | .acqRaw => s.inlen.toNat = entBytes s.build.w
  | .acqCoin => s.inlen.toNat = entBits s.build.w ∧
      ∀ k < entBits s.build.w, s.inbufByte k ∈ [0x48, 0x68, 0x54, 0x74]
  | .acqDice => s.inlen.toNat = rolls s.build.w ∧
      ∀ k < rolls s.build.w, s.inbufByte k ∈ [0x31, 0x32, 0x33, 0x34, 0x35, 0x36]
  | .openSession | .abort | .derive | .finish => True

/-- What the next step is: the scheduled event, or a completion where nothing is scheduled (log 5). -/
def State.nextEvent (s : State) : Event := s.schedule.headD .completion

/-- `t` agrees with `s` on the block's registers and buffers and on its build; what the outside world does, and the
values drawn so far, may differ. -/
def State.SameBlock (s t : State) : Prop :=
  t.build = s.build ∧ t.phase = s.phase ∧ t.err = s.err ∧ t.fatal = s.fatal ∧ t.errinfo = s.errinfo ∧
    t.inlen = s.inlen ∧ t.inbuf = s.inbuf ∧ t.ebuf = s.ebuf ∧ t.csum = s.csum ∧ t.idx = s.idx ∧ t.wsel = s.wsel ∧
    t.pending = s.pending

end Sys2Proof.Machine
end

