-- ==== Sys2Proof/Certificates/Slice0/Obligations.lean ====
section
/-! DEFINITION. The statements for the provers, from the numbered rules of spec/. Results are written out field by field,
so that each one is its command's result, its frame and its completion at once. -/

open Sys2Proof Sys2Proof.Machine

/-! ### Session commands -/

/-- 45_session.md R211, whole: encoding, both outcomes with everything else unchanged, INBUF writes before OPEN
dropped, and the example from reset. (That OPEN finds INBUF zero is the spec's own inference: SessionsAreIndependent.)
-/
def Obligations.OpenBeginsASession : Prop :=
  (∀ dice, decode dice 0x00000001 = .legal .openSession) ∧
  (∀ s : State, s.fatal = false → s.phase = .idle ∨ s.phase = .done →
    exec .openSession s =
      .next { s with inbuf := [], inlen := 0, phase := .collecting, err := .ok, errinfo := 0 }) ∧
  (∀ s : State, s.fatal = false → s.phase = .collecting ∨ s.phase = .csumAppended ∨ s.phase = .derived →
    exec .openSession s = .next { s with err := .phase, errinfo := BitVec.ofNat 16 (phaseCode s.phase) }) ∧
  (∀ (s : State) (rest : List Event) (off n : Nat) (v : Word), s.phase = .idle ∨ s.phase = .done → s.busy = false →
    0x400 ≤ off → off + n ≤ 0x500 → n ∈ [1, 2, 4] → off % n = 0 →
    s.schedule = .write (s.build.base + off) n v :: rest → step s = .next { s with schedule := rest }) ∧
  ∃ t, step (State.reset.withFetchWord 32 0x00000001) = .next t ∧ statusWord t = 0x00000001

/-- 45_session.md R212: ABORT succeeds in every phase and zeroizes everything; with FATAL = 1 it is dropped. The
rule's corner case ("ABORT in IDLE changes nothing but ERR and ERRINFO") needs WSEL = 0, which IDLE alone does not
give (log 24); it is stated with that premise. -/
def Obligations.AbortZeroizesFromEveryPhase : Prop :=
  (∀ dice, decode dice 0x00000002 = .legal .abort) ∧
  (∀ s : State, s.fatal = false →
    exec .abort s =
      .next { s with inbuf := [], inlen := 0, ebuf := List.replicate (entBits s.build.w) false, csum := 0,
                     idx := Vector.replicate 24 0, wsel := 0, phase := .idle, err := .ok, errinfo := 0 }) ∧
  (∀ s : State, s.fatal = true → exec .abort s = .next s) ∧
  ∀ s : State, s.Inv → s.fatal = false → s.phase = .idle → s.wsel = 0 →
    exec .abort s = .next { s with err := .ok, errinfo := 0 }

/-- 45_session.md R213, whole: encoding, both outcomes with everything else unchanged, INBUF and INLEN already zero,
and the phrase unreadable afterwards. The example's values are the second clause at IDX[23] and, once the completion
has cleared PENDING, at STATUS. -/
def Obligations.FinishEndsTheSession : Prop :=
  (∀ dice, decode dice 0x00000030 = .legal .finish) ∧
  (∀ s : State, s.fatal = false → s.phase = .derived →
    ∃ t, exec .finish s = .next t ∧
      t = { s with ebuf := List.replicate (entBits s.build.w) false, csum := 0, idx := Vector.replicate 24 0,
                   wsel := 0, phase := .done, err := .ok, errinfo := 0 } ∧
      (∀ i, readReg t (.idx i) = 0) ∧ (∀ n, readReg t (.word n) = 0) ∧
      readReg { t with pending := none } .status = 0x00000004) ∧
  (∀ s : State, s.fatal = false → s.phase ≠ .derived →
    exec .finish s = .next { s with err := .phase, errinfo := BitVec.ofNat 16 (phaseCode s.phase) }) ∧
  ∀ s : State, s.Inv → s.phase = .derived → s.inbuf = [] ∧ s.inlen = 0

/-! ### Entropy acquisition -/

/-- 40_acquisition.md R113, whole. The RNG's answer is any byte string of length ENT_BYTES or Exhausted: clauses three
and four take each answer as the agent offers it, the fifth says that nothing else can happen, whatever is offered or
free. The queue of answers and the request count are the model's (log 4). (The example is in
WorkedExamplesOfTheCommands.) -/
def Obligations.AcqRngCommitsTheAnswerOrLocks : Prop :=
  (∀ dice, decode dice 0x00000010 = .legal .acqRng) ∧
  (∀ s : State, s.fatal = false → s.phase ≠ .collecting →
    exec .acqRng s = .next { s with err := .phase, errinfo := BitVec.ofNat 16 (phaseCode s.phase) }) ∧
  (∀ (s : State) (b : List Byte) (rest : List RngAnswer), s.fatal = false → s.phase = .collecting →
    s.rngReady = .bytes b :: rest → b.length = entBytes s.build.w →
    exec .acqRng s =
      .next { s with rngReady := rest, rngRequests := s.rngRequests + 1, ebuf := bitsOf b,
                     csum := BitVec.ofNat 8 (checksum s.build (bitsOf b)), inbuf := [], inlen := 0,
                     phase := .csumAppended, err := .ok, errinfo := 0 }) ∧
  (∀ (s : State) (rest : List RngAnswer), s.fatal = false → s.phase = .collecting →
    s.rngReady = .exhausted :: rest →
    exec .acqRng s =
      .next { s with rngReady := rest, rngRequests := s.rngRequests + 1, fatal := true, inbuf := [], inlen := 0,
                     ebuf := List.replicate (entBits s.build.w) false, csum := 0, idx := Vector.replicate 24 0,
                     wsel := 0, phase := .idle, err := .fatalRng, errinfo := 0 }) ∧
  ∀ s : State, s.fatal = false → s.phase = .collecting →
    (∃ b : List Byte, b.length = entBytes s.build.w ∧
      exec .acqRng s =
        .next { s with rngReady := s.rngReady.tail, rngRequests := s.rngRequests + 1, ebuf := bitsOf b,
                       csum := BitVec.ofNat 8 (checksum s.build (bitsOf b)), inbuf := [], inlen := 0,
                       phase := .csumAppended, err := .ok, errinfo := 0 }) ∨
    exec .acqRng s =
      .next { s with rngReady := s.rngReady.tail, rngRequests := s.rngRequests + 1, fatal := true, inbuf := [],
                     inlen := 0, ebuf := List.replicate (entBits s.build.w) false, csum := 0,
                     idx := Vector.replicate 24 0, wsel := 0, phase := .idle, err := .fatalRng, errinfo := 0 }

/-- 40_acquisition.md R114, whole. INBUF bytes at positions from ENT_BYTES on do not occur in the
result. (The example is in WorkedExamplesOfTheCommands.) -/
def Obligations.AcqRawCommitsHostBytes : Prop :=
  (∀ dice, decode dice 0x00000011 = .legal .acqRaw) ∧
  (∀ s : State, s.fatal = false → s.phase ≠ .collecting →
    exec .acqRaw s = .next { s with err := .phase, errinfo := BitVec.ofNat 16 (phaseCode s.phase) }) ∧
  (∀ s : State, s.fatal = false → s.phase = .collecting → s.inlen.toNat ≠ entBytes s.build.w →
    exec .acqRaw s = .next { s with err := .length, errinfo := BitVec.ofNat 16 (entBytes s.build.w) }) ∧
  (∀ s : State, s.fatal = false → s.phase = .collecting → s.inlen.toNat = entBytes s.build.w →
    ∃ b : List Byte, b = (List.range (entBytes s.build.w)).map s.inbufByte ∧
      exec .acqRaw s =
        .next { s with ebuf := bitsOf b, csum := BitVec.ofNat 8 (checksum s.build (bitsOf b)), inbuf := [],
                       inlen := 0, phase := .csumAppended, err := .ok, errinfo := 0 })

/-- 40_acquisition.md R115, whole, with R117's encoding position by position: every outcome and the lowest illegal
position. (The example is in WorkedExamplesOfTheCommands.) -/
def Obligations.AcqCoinCommitsFlips : Prop :=
  (∀ dice, decode dice 0x00000012 = .legal .acqCoin) ∧
  (∀ s : State, s.fatal = false → s.phase ≠ .collecting →
    exec .acqCoin s = .next { s with err := .phase, errinfo := BitVec.ofNat 16 (phaseCode s.phase) }) ∧
  (∀ s : State, s.fatal = false → s.phase = .collecting → s.inlen.toNat ≠ entBits s.build.w →
    exec .acqCoin s = .next { s with err := .length, errinfo := BitVec.ofNat 16 (entBits s.build.w) }) ∧
  (∀ (s : State) (k : Nat), s.fatal = false → s.phase = .collecting → s.inlen.toNat = entBits s.build.w →
    k < entBits s.build.w → s.inbufByte k ∉ [0x48, 0x68, 0x54, 0x74] →
    (∀ j < k, s.inbufByte j ∈ [0x48, 0x68, 0x54, 0x74]) →
    exec .acqCoin s = .next { s with err := .alphabet, errinfo := BitVec.ofNat 16 k }) ∧
  (∀ s : State, s.fatal = false → s.phase = .collecting → s.inlen.toNat = entBits s.build.w →
    (∀ k < entBits s.build.w, s.inbufByte k ∈ [0x48, 0x68, 0x54, 0x74]) →
    ∃ e : List Bool, e.length = entBits s.build.w ∧
      (∀ k < entBits s.build.w, e[k]? = some (decide (s.inbufByte k = 0x48 ∨ s.inbufByte k = 0x68))) ∧
      exec .acqCoin s =
        .next { s with ebuf := e, csum := BitVec.ofNat 8 (checksum s.build e), inbuf := [], inlen := 0,
                       phase := .csumAppended, err := .ok, errinfo := 0 })

/-- 40_acquisition.md R116, whole, with 41_dice_fold.md R145's encoding: illegal without dice, every outcome with
dice, each group's eleven bits and the three trailing bits in place. (The example is in WorkedExamplesOfTheCommands.)
-/
def Obligations.AcqDiceCommitsFoldedRolls : Prop :=
  (decode true 0x00000013 = .legal .acqDice ∧ decode false 0x00000013 = .illegal .diceAbsent) ∧
  (∀ s : State, s.fatal = false → s.build.w ≠ .w24 →
    exec .acqDice s = .next { s with err := .illegalCmd, errinfo := 0x0013 }) ∧
  (∀ s : State, s.fatal = false → s.build.w = .w24 → s.phase ≠ .collecting →
    exec .acqDice s = .next { s with err := .phase, errinfo := BitVec.ofNat 16 (phaseCode s.phase) }) ∧
  (∀ s : State, s.fatal = false → s.build.w = .w24 → s.phase = .collecting → s.inlen.toNat ≠ 95 →
    exec .acqDice s = .next { s with err := .length, errinfo := 95 }) ∧
  (∀ (s : State) (k : Nat), s.fatal = false → s.build.w = .w24 → s.phase = .collecting → s.inlen.toNat = 95 →
    k < 95 → s.inbufByte k ∉ [0x31, 0x32, 0x33, 0x34, 0x35, 0x36] →
    (∀ j < k, s.inbufByte j ∈ [0x31, 0x32, 0x33, 0x34, 0x35, 0x36]) →
    exec .acqDice s = .next { s with err := .alphabet, errinfo := BitVec.ofNat 16 k }) ∧
  (∀ s : State, s.fatal = false → s.build.w = .w24 → s.phase = .collecting → s.inlen.toNat = 95 →
    (∀ k < 95, s.inbufByte k ∈ [0x31, 0x32, 0x33, 0x34, 0x35, 0x36]) →
    ∃ (r : Nat → Nat) (e : List Bool), (∀ k, r k = (s.inbufByte k - 0x30).toNat) ∧ e.length = 256 ∧
      (∀ g < 23, slice e (11 * g) 11 =
        seqOf 11 (fold (r (4 * g)) (r (4 * g + 1)) (r (4 * g + 2)) (r (4 * g + 3)))) ∧
      (∀ j < 3, e[253 + j]? = some (decide (4 ≤ r (92 + j)))) ∧
      exec .acqDice s =
        .next { s with ebuf := e, csum := BitVec.ofNat 8 (checksum s.build e), inbuf := [], inlen := 0,
                       phase := .csumAppended, err := .ok, errinfo := 0 })

/-- 40_acquisition.md R111: Validate raises E_LENGTH exactly on a wrong length, E_ALPHABET exactly at the lowest
illegal position of an input of the right length, and falls through exactly on a valid input. -/
def Obligations.ValidateReportsTheFirstError : Prop :=
  ∀ (s : State) (req : Nat) (legal : Byte → Bool),
    (validate s req legal = some (.length, req) ↔ s.inlen.toNat ≠ req) ∧
    (∀ k, validate s req legal = some (.alphabet, k) ↔
      s.inlen.toNat = req ∧ k < req ∧ legal (s.inbufByte k) = false ∧ ∀ j < k, legal (s.inbufByte j) = true) ∧
    (validate s req legal = none ↔ s.inlen.toNat = req ∧ ∀ k < req, legal (s.inbufByte k) = true)

/-! ### The indexer -/

/-- 44_indexer.md R190, whole: every register's new value, the phase error and the corner cases. (The example is in
WorkedExamplesOfTheCommands.) -/
def Obligations.DeriveSlicesTheCombinedBuffer : Prop :=
  (∀ dice, decode dice 0x00000020 = .legal .derive) ∧
  (∀ s : State, s.fatal = false → s.phase ≠ .csumAppended →
    exec .derive s = .next { s with err := .phase, errinfo := BitVec.ofNat 16 (phaseCode s.phase) }) ∧
  (∀ s : State, s.fatal = false → s.phase = .csumAppended →
    ∃ v : Vector (BitVec 11) 24,
      exec .derive s = .next { s with idx := v, phase := .derived, err := .ok, errinfo := 0 } ∧
      (∀ i (h : i < 24), i < wordCount s.build.w →
        v[i].toNat = uint (slice (s.ebuf ++ seqOf (csumBits s.build.w) s.csum.toNat) (11 * i) 11)) ∧
      (∀ i (h : i < 24), wordCount s.build.w ≤ i → v[i] = s.idx[i]) ∧
      (s.ebuf = List.replicate (entBits s.build.w) false → s.csum = 0 →
        ∀ i (h : i < 24), i < wordCount s.build.w → v[i] = 0) ∧
      (s.ebuf = List.replicate (entBits s.build.w) true →
        ∀ i (h : i < 24), i < wordCount s.build.w - 1 → v[i] = 0x7FF) ∧
      (s.ebuf.length = entBits s.build.w → ∀ i (h : i < 24), i < wordCount s.build.w - 1 →
        v[i].toNat = uint (slice s.ebuf (11 * i) 11)))

/-- The worked examples of 40_acquisition.md R113 to R116 and of 44_indexer.md R190. The spec marks them as its own
derivations ("SHA-256 value from general knowledge, not in source"), so this is no rule of the spec but a check that
the model computes the values it prints. -/
def Obligations.WorkedExamplesOfTheCommands : Prop :=
  (∀ (s : State) (rest : List RngAnswer), s.fatal = false → s.phase = .collecting → s.build.w = .w24 →
    s.build.hash = .sha256 → s.rngReady = .bytes (List.replicate 32 0) :: rest →
    ∃ t, exec .acqRng s = .next t ∧ t.phase = .csumAppended ∧ t.csum = 0x66 ∧ t.err = .ok) ∧
  (∀ s : State, s.fatal = false → s.phase = .collecting → s.build.w = .w24 → s.build.hash = .sha256 →
    s.inlen = 32 → (∀ k < 32, s.inbufByte k = BitVec.ofNat 8 k) →
    ∃ t, exec .acqRaw s = .next t ∧ t.phase = .csumAppended ∧ t.csum = 0x63) ∧
  (∀ s : State, s.fatal = false → s.phase = .collecting → s.build.w = .w24 → s.build.hash = .sha256 →
    s.inlen = 256 → (∀ k < 256, s.inbufByte k = 0x48) →
    ∃ t, exec .acqCoin s = .next t ∧ t.ebuf = List.replicate 256 true ∧ t.csum = 0xAF) ∧
  (∀ s : State, s.fatal = false → s.build.w = .w24 → s.phase = .collecting → s.build.hash = .sha256 →
    s.inlen = 95 → (∀ k < 95, s.inbufByte k = 0x31) →
    ∃ t, exec .acqDice s = .next t ∧ t.ebuf = List.replicate 256 false ∧ t.csum = 0x66) ∧
  ∀ s : State, s.fatal = false → s.phase = .csumAppended → s.build.w = .w24 →
    s.ebuf = List.replicate 256 false → s.csum = 0x66 →
    ∃ t, exec .derive s = .next t ∧ (∀ i < 23, t.idxAt i = 0) ∧ t.idxAt 23 = 0x066

/-- 44_indexer.md R191: the groups cover the combined buffer exactly, most significant bit first, entropy only before
the last, and the last one's two parts. Item 3 (no masking) is that the slice itself is the value. -/
def Obligations.SlicingFacts : Prop :=
  ∀ s t : State, s.Inv → s.fatal = false → s.phase = .csumAppended → exec .derive s = .next t →
    (11 * wordCount s.build.w = totalBits s.build.w ∧
      (List.range (wordCount s.build.w)).flatMap (fun i => seqOf 11 (t.idxAt i).toNat) =
        combined s.build s.ebuf s.csum) ∧
    (∀ i < wordCount s.build.w, ∀ j ≤ 10,
      some ((t.idxAt i).getLsbD (10 - j)) = (combined s.build s.ebuf s.csum)[11 * i + j]?) ∧
    (∀ i < wordCount s.build.w,
      (t.idxAt i).toNat = uint (slice (combined s.build s.ebuf s.csum) (11 * i) 11) ∧ (t.idxAt i).toNat ≤ 2047) ∧
    (∀ i < wordCount s.build.w - 1, seqOf 11 (t.idxAt i).toNat = slice s.ebuf (11 * i) 11) ∧
    (t.idxAt (wordCount s.build.w - 1)).toNat =
      uint (s.ebuf.drop (entBits s.build.w - (11 - csumBits s.build.w))) * 2 ^ csumBits s.build.w + s.csum.toNat

/-- 44_indexer.md R191 and R34 of 10_state.md, read backwards: the indices lose nothing, so two sessions with one
phrase had one entropy and one checksum. -/
def Obligations.IndicesDetermineTheEntropy : Prop :=
  ∀ s t : State, s.Inv → t.Inv → s.build = t.build → s.phase = .derived → t.phase = .derived →
    (∀ i < wordCount s.build.w, s.idxAt i = t.idxAt i) → s.ebuf = t.ebuf ∧ s.csum = t.csum

/-- 44_indexer.md R196 and 42_checksum.md R162, over the commands. Whatever two acquisition commands committed equal
entropy in blocks of one build (so one HASH and one DICT), their checksums are equal, and so are the indices and phrases
that DERIVE then gives; both are functions of EBUF and HASH alone, written out. The second clause is R196's example:
ACQ_RAW of 32 zero bytes, ACQ_RNG answering 32 zero bytes and ACQ_DICE of 95 ones give the same IDX, under any HASH. -/
def Obligations.PhraseDependsOnEntropyAlone : Prop :=
  (∀ (i j : Instr) (s s' t t' : State), i ∈ [.acqRng, .acqRaw, .acqCoin, .acqDice] →
    j ∈ [.acqRng, .acqRaw, .acqCoin, .acqDice] → s.Inv → s'.Inv → s.build = s'.build →
    exec i s = .next t → exec j s' = .next t' → t.phase = .csumAppended → t'.phase = .csumAppended →
    t.ebuf = t'.ebuf →
    t.csum = t'.csum ∧ t.csum.toNat = checksum s.build t.ebuf ∧
      ∃ u u' : State, exec .derive t = .next u ∧ exec .derive t' = .next u' ∧ u.phase = .derived ∧ u'.phase = .derived ∧
        u.idx = u'.idx ∧ u.phrase = u'.phrase ∧
        ∀ k < wordCount s.build.w, (u.idxAt k).toNat =
          uint (slice (t.ebuf ++ seqOf (csumBits s.build.w) (checksum s.build t.ebuf)) (11 * k) 11)) ∧
  ∀ (s s' s'' : State) (rest : List RngAnswer), s.build.w = .w24 → s.build = s'.build → s.build = s''.build →
    s.fatal = false → s'.fatal = false → s''.fatal = false →
    s.phase = .collecting → s'.phase = .collecting → s''.phase = .collecting →
    s.inlen = 32 → (∀ k < 32, s.inbufByte k = 0) →
    s'.rngReady = .bytes (List.replicate 32 0) :: rest →
    s''.inlen = 95 → (∀ k < 95, s''.inbufByte k = 0x31) →
    ∃ t t' t'' u u' u'' : State, exec .acqRaw s = .next t ∧ exec .acqRng s' = .next t' ∧
      exec .acqDice s'' = .next t'' ∧ exec .derive t = .next u ∧ exec .derive t' = .next u' ∧
      exec .derive t'' = .next u'' ∧ u.phase = .derived ∧ u.idx = u'.idx ∧ u.idx = u''.idx

/-- 41_dice_fold.md R148: after ACQ_DICE and DERIVE each index is its group's fold, and the last one is the three
trailing bits above the checksum. -/
def Obligations.DiceIndicesAreFolds : Prop :=
  ∀ s t u : State, s.fatal = false → s.build.w = .w24 → s.phase = .collecting →
    exec .acqDice s = .next t → t.phase = .csumAppended → exec .derive t = .next u →
    ∃ r : Nat → Nat, (∀ k, r k = (s.inbufByte k - 0x30).toNat) ∧
      (∀ g < 23, (u.idxAt g).toNat = fold (r (4 * g)) (r (4 * g + 1)) (r (4 * g + 2)) (r (4 * g + 3))) ∧
      (u.idxAt 23).toNat = (decide (4 ≤ r 92)).toNat * 1024 + (decide (4 ≤ r 93)).toNat * 512 +
        (decide (4 ≤ r 94)).toNat * 256 + t.csum.toNat

/-- 41_dice_fold.md R147 (and R140 to R143): for every group of rolls, the fold complements the first eleven raw bits
exactly when the decision bit is 1. -/
def Obligations.FoldComplementsOnTheDecisionBit : Prop :=
  ∀ a ∈ [1, 2, 3, 4, 5, 6], ∀ b ∈ [1, 2, 3, 4, 5, 6], ∀ c ∈ [1, 2, 3, 4, 5, 6], ∀ d ∈ [1, 2, 3, 4, 5, 6],
    ((rawGroup a b c d)[11]? = some true → seqOf 11 (fold a b c d) = ((rawGroup a b c d).take 11).map (!·)) ∧
    ((rawGroup a b c d)[11]? = some false → seqOf 11 (fold a b c d) = (rawGroup a b c d).take 11) ∧
    (rawGroup a b c d).length = 12

/-- 40_acquisition.md R118: the coin encoding determines its symbols up to case, reaches every bit sequence, and
changing one symbol's class changes exactly that position. -/
def Obligations.CoinFlipsAreABijection : Prop :=
  ∀ n : Nat,
    (∀ f g : Nat → Byte, (∀ k < n, legalCoin (f k) = true ∧ legalCoin (g k) = true) →
      (coinEncode n f = coinEncode n g ↔ ∀ k < n, (f k = g k ∨ f k = g k ^^^ 0x20))) ∧
    (∀ e : List Bool, e.length = n → ∃ f : Nat → Byte, (∀ k < n, legalCoin (f k) = true) ∧ coinEncode n f = e) ∧
    ∀ (f g : Nat → Byte) (j : Nat), j < n → (∀ k, k ≠ j → f k = g k) → isHeads (f j) ≠ isHeads (g j) →
      coinEncode n g = (coinEncode n f).set j (!(isHeads (f j)))

/-- 44_indexer.md R193, whole: the character lanes of WORDn, zero past the word's end, zero outside DERIVED and for
WSEL ≥ W, zero from WORD_BYTES on where DICT meets its premise, and no side effect. -/
def Obligations.WordWindowShowsTheSelectedWord : Prop :=
  ∀ (s : State) (rest : List Event) (n : Nat), n < 4 → s.busy = false →
    s.schedule = .read (s.build.base + (0x020 + 4 * n)) 4 :: rest →
    ∃ v : Word, step s = .next { s with schedule := rest, readLog := v :: s.readLog } ∧
      (s.phase ≠ .derived ∨ wordCount s.build.w ≤ s.wsel.toNat → v = 0) ∧
      (s.phase = .derived → s.wsel.toNat < wordCount s.build.w →
        ∀ j < 4, v.extractLsb' (8 * j) 8 =
          ((dictWord s.build (s.idxAt s.wsel.toNat).toNat)[4 * n + j]?).getD 0) ∧
      (DictOk s.build → s.build.wordBytes ≤ 4 * n → v = 0)

/-- 44_indexer.md R194 and R193, 10_state.md R43, 70_reset_and_hazards.md R282: outside DERIVED every read of an IDX or
WORDn register returns 0. (CSUM is no such register: in CSUM_APPENDED it reads the checksum, 10_state.md R33.) -/
def Obligations.PhraseReadableOnlyInDerived : Prop :=
  ∀ (s : State) (rest : List Event) (off : Nat), s.Inv → s.phase ≠ .derived → s.busy = false → off % 4 = 0 →
    (0x100 ≤ off ∧ off < 0x160) ∨ (0x020 ≤ off ∧ off < 0x030) →
    s.schedule = .read (s.build.base + off) 4 :: rest →
    step s = .next { s with schedule := rest, readLog := 0 :: s.readLog }

/-! ### Checksum and SHA-256 -/

/-- 42_checksum.md R160 at the reference hash: in the W = 24 build the checksum is the digest's first byte, in the
W = 12 build its top four bits, and in every build it is the leading CSUM_BITS bits of that byte. -/
def Obligations.ChecksumIsTheLeadingDigestBits : Prop :=
  ∀ (b : Build) (e : List Bool), b.hash = .sha256 →
    ∃ d : Byte, (sha256 (bytesOf e)).head? = some d ∧
      checksum b e = d.toNat / 2 ^ (8 - csumBits b.w) ∧
      (b.w = .w24 → checksum b e = d.toNat) ∧ (b.w = .w12 → checksum b e = d.toNat / 16)

/-- 43_sha256.md R175: the padding of a message of n bytes, its length a multiple of 64, and one block for every
message the block hashes. -/
def Obligations.PaddingFillsWholeBlocks : Prop :=
  ∀ m : List Byte,
    (∃ z, z < 64 ∧ (m.length + z + 9) % 64 = 0 ∧ shaPad m = m ++ [0x80] ++ List.replicate z 0 ++ shaBE64 (8 * m.length)) ∧
    (shaPad m).length % 64 = 0 ∧ (m.length ≤ 32 → (shaPad m).length = 64)

/-! ### Decode -/

/-- 30_encoding.md R92 and R93: exactly the eight words decode, each to its command, ACQ_DICE only with dice. -/
def Obligations.ExactlyTheEightWordsDecode : Prop :=
  ∀ (dice : Bool) (c : Word) (i : Instr),
    decode dice c = .legal i ↔
      (c, i) ∈ [((0x00000001 : Word), Instr.openSession), (0x00000002, .abort), (0x00000010, .acqRng),
        (0x00000011, .acqRaw), (0x00000012, .acqCoin), (0x00000013, .acqDice), (0x00000020, .derive),
        (0x00000030, .finish)] ∧ (i = .acqDice → dice = true)

/-- Decode and encode agree, for every command and every build: the encoded word of a command decodes to it exactly
where the build has it, and no other word does (30_encoding.md R92, R93, R95). -/
def Obligations.DecodeInvertsEncode : Prop :=
  ∀ (b : Build) (c : Word) (i : Instr), decode b.dicePresent c = .legal i ↔ c = encode i ∧ i.wf b = true

/-- A few words written out from the tables of 30_encoding.md R92 and R100. The block takes a command as one 32-bit
access; that its four bytes are little-endian, as 20_memory.md R67 orders the bus, is the model's inference (log 17). -/
def Obligations.WrittenOutWordsDecode : Prop :=
  decodeBytes true [0x01, 0x00, 0x00, 0x00] = .legal .openSession ∧
  decodeBytes true [0x12, 0x00, 0x00, 0x00] = .legal .acqCoin ∧
  decodeBytes true [0x13, 0x00, 0x00, 0x00] = .legal .acqDice ∧
  decodeBytes true [0x20, 0x00, 0x00, 0x00] = .legal .derive ∧
  decodeBytes true [0x13, 0x01, 0x00, 0x00] = .illegal .reservedBits ∧
  decodeBytes true [0x00, 0x00, 0x00, 0x00] = .illegal .unknownOp ∧
  decodeBytes false [0x13, 0x00, 0x00, 0x00] = .illegal .diceAbsent ∧
  decodeTableWord 32 0x00000030 = some .finish

/-! ### Issue and completion -/

/-- A step runs the decoded command: with PENDING holding a word that decodes, the completion is exec of its command,
and around it only the completion's slot (log 5) is used up and PENDING cleared (45_session.md R216). The build admits
no self-check failure here; SelfCheckFailureReplacesTheRule says what one adds. -/
def Obligations.StepRunsTheDecodedCommand : Prop :=
  ∀ (s : State) (c : Word) (i : Instr), s.nextEvent = .completion → s.pending = some c → s.fatal = false →
    s.build.allowSpuriousFatal = false → decode s.build.dicePresent c = .legal i →
    ∃ t, exec i { s with schedule := s.schedule.tail } = .next t ∧ step s = .next { t with pending := none }

/-- 30_encoding.md R94 and R95: a word with a nonzero bit in [31:8], with an OP that is none of the eight, or ACQ_DICE
without dice, completes with E_ILLEGAL_CMD and its own low half in ERRINFO, and changes nothing else (the slot used up
is log 5's; with ALLOW_SPURIOUS_FATAL see SelfCheckFailureReplacesTheRule, log 25). -/
def Obligations.IllegalWordsOnlyReport : Prop :=
  ∀ (s : State) (c : Word), s.nextEvent = .completion → s.pending = some c → s.fatal = false →
    s.build.allowSpuriousFatal = false →
    (c.extractLsb 31 8 ≠ 0 ∨ c.extractLsb 7 0 ∉ [0x01, 0x02, 0x10, 0x11, 0x12, 0x13, 0x20, 0x30] ∨
      (c = 0x00000013 ∧ s.build.w ≠ .w24)) →
    step s = .next { s with schedule := s.schedule.tail, pending := none, err := .illegalCmd,
                            errinfo := c.extractLsb 15 0 }

/-- 45_session.md R216, 10_state.md R38: a completion step always completes and leaves PENDING = none, BUSY = 0. R216
enables it only with a word pending; that the model's completion slot is a step with nothing pending too (log 12), that
it drops a word pending with FATAL = 1 (log 11), and that an empty schedule completes (log 5) are the model's. -/
def Obligations.CompletionEmptiesPending : Prop :=
  ∀ s : State, s.nextEvent = .completion →
    ∃ t, step s = .next t ∧ t.pending = none ∧ t.busy = false ∧ t.schedule = s.schedule.tail

/-- 60_exceptions.md R247: with ALLOW_SPURIOUS_FATAL the free choice, whichever it is, either takes
FatalEntry(E_FATAL_INV) instead of the command or illegal word, or takes its rule; without it no step brings
E_FATAL_INV. The free value's form, the draw counter and that the fatal entry leaves the RNG unasked even for ACQ_RNG are
the model's choice (log 7), and that an illegal word's completion may fail too is its inference (log 25). -/
def Obligations.SelfCheckFailureReplacesTheRule : Prop :=
  (∀ (s : State) (c : Word) (i : Instr), s.nextEvent = .completion → s.pending = some c → s.fatal = false →
    s.build.allowSpuriousFatal = true → decode s.build.dicePresent c = .legal i →
    ∃ t, exec i { s with schedule := s.schedule.tail, draws := s.draws + 1 } = .next t ∧
      step s =
        if Config.selfCheckFails s.draws = true then
          .next { s with schedule := s.schedule.tail, draws := s.draws + 1, pending := none, fatal := true,
                         inbuf := [], inlen := 0, ebuf := List.replicate (entBits s.build.w) false, csum := 0,
                         idx := Vector.replicate 24 0, wsel := 0, phase := .idle, err := .fatalInv, errinfo := 0 }
        else .next { t with pending := none }) ∧
  (∀ (s : State) (c : Word) (w : Illegal), s.nextEvent = .completion → s.pending = some c → s.fatal = false →
    s.build.allowSpuriousFatal = true → decode s.build.dicePresent c = .illegal w →
    step s =
      if Config.selfCheckFails s.draws = true then
        .next { s with schedule := s.schedule.tail, draws := s.draws + 1, pending := none, fatal := true,
                       inbuf := [], inlen := 0, ebuf := List.replicate (entBits s.build.w) false, csum := 0,
                       idx := Vector.replicate 24 0, wsel := 0, phase := .idle, err := .fatalInv, errinfo := 0 }
      else
        .next { s with schedule := s.schedule.tail, draws := s.draws + 1, pending := none, err := .illegalCmd,
                       errinfo := c.extractLsb 15 0 }) ∧
  ∀ s t : State, s.build.allowSpuriousFatal = false → step s = .next t → t.err = .fatalInv → s.err = .fatalInv

/-- 60_exceptions.md R244, R242, 40_acquisition.md R119: a command that ends with a recoverable code changes ERR and
ERRINFO and nothing else. -/
def Obligations.RecoverableErrorsChangeOnlyTheReport : Prop :=
  ∀ (i : Instr) (s t : State), exec i s = .next t → t.err ∈ [.length, .alphabet, .illegalCmd, .phase] →
    t = { s with err := t.err, errinfo := t.errinfo }

/-- The frames of 30_encoding.md R90's table of what each command writes, for every command in every state: no command
touches the build, PENDING or the host's side; only ACQ_RNG uses the RNG or sets FATAL; and the registers and every
byte of INBUF that a command does not list stay as they are. -/
def Obligations.CommandsWriteOnlyWhatTheTableLists : Prop :=
  ∀ (i : Instr) (s t : State), exec i s = .next t →
    (t.build = s.build ∧ t.pending = s.pending ∧ t.schedule = s.schedule ∧ t.readLog = s.readLog ∧
      t.draws = s.draws) ∧
    (i ≠ .acqRng → t.rngReady = s.rngReady ∧ t.rngRequests = s.rngRequests ∧ t.fatal = s.fatal) ∧
    (i = .openSession → t.ebuf = s.ebuf ∧ t.csum = s.csum ∧ t.idx = s.idx ∧ t.wsel = s.wsel) ∧
    (i = .acqRaw ∨ i = .acqCoin ∨ i = .acqDice ∨ (i = .acqRng ∧ t.fatal = false) → t.idx = s.idx ∧ t.wsel = s.wsel) ∧
    (i = .derive → t.inlen = s.inlen ∧ t.ebuf = s.ebuf ∧ t.csum = s.csum ∧ t.wsel = s.wsel ∧
      (∀ j, wordCount s.build.w ≤ j → t.idxAt j = s.idxAt j)) ∧
    (i = .derive ∨ i = .finish → t.inlen = s.inlen ∧ ∀ k, t.inbufByte k = s.inbufByte k) ∧
    ∀ k, t.inbufByte k = s.inbufByte k ∨ t.inbufByte k = 0

/-- 45_session.md R210, whole, with FATAL = 0: an illegal word completes and leaves the phase unchanged. A command the
build has completes, and either follows a row of the table with its input valid; or has invalid input in COLLECTING,
reports E_LENGTH or E_ALPHABET and stays there; or is ACQ_RNG with the RNG exhausted and locks the block; or is not
listed for the phase and reports E_PHASE with the phase unchanged. -/
def Obligations.PhasesMoveAsTheTableSays : Prop :=
  (∀ (s : State) (c : Word) (w : Illegal), s.fatal = false → decode s.build.dicePresent c = .illegal w →
    ∃ t, runCommand s c = .next t ∧ t.phase = s.phase ∧ t.err = .illegalCmd) ∧
  ∀ (i : Instr) (s : State), s.fatal = false → i.wf s.build = true →
    ∃ t, exec i s = .next t ∧
      ((t.err = .ok ∧ t.fatal = false ∧ (s.phase, i, t.phase) ∈ sessionTable ∧ s.inputValid i) ∨
      ((t.err = .length ∨ t.err = .alphabet) ∧ t.fatal = false ∧ s.phase = .collecting ∧ t.phase = .collecting ∧
        i ∈ [.acqRaw, .acqCoin, .acqDice] ∧ ¬s.inputValid i) ∨
      (t.err = .fatalRng ∧ t.fatal = true ∧ s.phase = .collecting ∧ t.phase = .idle ∧ i = .acqRng ∧
        s.rngAnswer = none) ∨
      (t.err = .phase ∧ t.fatal = false ∧ t.phase = s.phase ∧ t.errinfo.toNat = phaseCode s.phase ∧
        ∀ p, (s.phase, i, p) ∉ sessionTable))

/-- 10_state.md R40 and R27: PHASE, ERR, ERRINFO and FATAL are written only by command completions and reset: a host
access changes none of them. -/
def Obligations.AccessesNeverWriteTheStatusFields : Prop :=
  ∀ s t : State, step s = .next t → s.nextEvent ≠ .completion → s.nextEvent ≠ .reset →
    t.phase = s.phase ∧ t.err = s.err ∧ t.errinfo = s.errinfo ∧ t.fatal = s.fatal

/-- 10_state.md R32 and R33 over the whole machine: EBUF and CSUM change only by a successful ACQ_* in COLLECTING, or
to zero by FINISH, ABORT, a fatal entry or reset. -/
def Obligations.EntropyWrittenOnlyByAcquisition : Prop :=
  ∀ s t : State, step s = .next t → t.ebuf ≠ s.ebuf ∨ t.csum ≠ s.csum →
    (s.nextEvent = .completion ∧ s.fatal = false ∧ s.phase = .collecting ∧ t.phase = .csumAppended ∧ t.err = .ok ∧
      ∃ c, s.pending = some c ∧
        decode s.build.dicePresent c ∈ [.legal .acqRng, .legal .acqRaw, .legal .acqCoin, .legal .acqDice]) ∨
    (t.ebuf = zeroEntropy s.build ∧ t.csum = 0 ∧
      (s.nextEvent = .reset ∨ (s.nextEvent = .completion ∧
        (t.fatal = true ∨
          ∃ c, s.pending = some c ∧ decode s.build.dicePresent c ∈ [.legal .abort, .legal .finish]))))

/-- 10_state.md R35 over the whole machine: an IDX register changes only by DERIVE in CSUM_APPENDED, and then only
below W, or all go to zero by FINISH, ABORT, a fatal entry or reset. -/
def Obligations.IndicesWrittenOnlyByDerive : Prop :=
  ∀ s t : State, step s = .next t → t.idx ≠ s.idx →
    (s.nextEvent = .completion ∧ s.fatal = false ∧ s.phase = .csumAppended ∧ t.phase = .derived ∧
      (∀ i, wordCount s.build.w ≤ i → t.idxAt i = s.idxAt i) ∧
      ∃ c, s.pending = some c ∧ decode s.build.dicePresent c = .legal .derive) ∨
    (t.idx = zeroIdx ∧
      (s.nextEvent = .reset ∨ (s.nextEvent = .completion ∧
        (t.fatal = true ∨
          ∃ c, s.pending = some c ∧ decode s.build.dicePresent c ∈ [.legal .abort, .legal .finish]))))

/-- 20_memory.md R66, 40_acquisition.md R113: a step makes an RNG request only where it completes ACQ_RNG in COLLECTING,
and then exactly one; and it makes that one wherever it completes ACQ_RNG in COLLECTING with FATAL = 0 and no self-check
fails. The counter and the queue of answers are the model's (log 4); that a failed self-check leaves the RNG unasked is
its choice (log 7). -/
def Obligations.OnlyAcqRngAsksTheRng : Prop :=
  (∀ s t : State, step s = .next t → t.rngRequests ≠ s.rngRequests ∨ t.rngReady ≠ s.rngReady →
    t.rngRequests = s.rngRequests + 1 ∧ t.rngReady = s.rngReady.tail ∧
      s.nextEvent = .completion ∧ s.fatal = false ∧ s.phase = .collecting ∧
      ∃ c, s.pending = some c ∧ decode s.build.dicePresent c = .legal .acqRng) ∧
  ∀ (s : State) (c : Word), s.nextEvent = .completion → s.pending = some c → s.fatal = false →
    s.phase = .collecting → s.spuriousFatal = false → decode s.build.dicePresent c = .legal .acqRng →
    ∃ t, step s = .next t ∧ t.rngRequests = s.rngRequests + 1 ∧ t.rngReady = s.rngReady.tail

/-- 10_state.md R45 and 70_reset_and_hazards.md R273: no step, reset among them, changes a build parameter. -/
def Obligations.NoStepChangesTheBuild : Prop :=
  ∀ s t : State, step s = .next t → t.build = s.build

/-! ### Register accesses -/

/-- 45_session.md R214 and R215, the 32-bit registers: CMD issues, INLEN takes v[8:0] in COLLECTING and nothing else,
WSEL takes v[4:0] in every phase, and a write anywhere outside these and INBUF does nothing. -/
def Obligations.RegisterWrites : Prop :=
  ∀ (s : State) (rest : List Event) (off : Nat) (v : Word), s.fatal = false → s.busy = false →
    s.schedule = .write (s.build.base + off) 4 v :: rest →
    (off = 0x008 → step s = .next { s with schedule := rest, pending := some v }) ∧
    (off = 0x014 → s.phase = .collecting →
      step s = .next { s with schedule := rest, inlen := v.extractLsb 8 0 }) ∧
    (off = 0x014 → s.phase ≠ .collecting → step s = .next { s with schedule := rest }) ∧
    (off = 0x01C → step s = .next { s with schedule := rest, wsel := v.extractLsb 4 0 }) ∧
    (off < 0x1000 → off % 4 = 0 → off ∉ [0x008, 0x014, 0x01C] → ¬(0x400 ≤ off ∧ off < 0x500) →
      step s = .next { s with schedule := rest })

/-- 20_memory.md R62, whole: an admitted INBUF write in COLLECTING puts lane j at position off - 0x400 + j and leaves
every other byte; in any other phase, or with FATAL = 1, it has no effect; with BUSY = 1 it is refused first (log 9
names the refusal); and an INBUF read returns 0 and changes nothing. -/
def Obligations.InbufWritesTakeByteLanes : Prop :=
  ∀ (s : State) (rest : List Event) (off n : Nat) (v : Word),
    0x400 ≤ off → off + n ≤ 0x500 → n ∈ [1, 2, 4] → off % n = 0 →
    (s.schedule = .write (s.build.base + off) n v :: rest → s.busy = false → s.fatal = false → s.phase = .collecting →
      Memory.wf s.inbuf →
      ∃ m : Memory, step s = .next { s with schedule := rest, inbuf := m } ∧ Memory.wf m ∧
        ∀ k, Memory.read m k =
          if off - 0x400 ≤ k ∧ k < off - 0x400 + n then v.extractLsb' (8 * (k - (off - 0x400))) 8
          else Memory.read s.inbuf k) ∧
    (s.schedule = .write (s.build.base + off) n v :: rest → s.busy = false → s.fatal = true ∨ s.phase ≠ .collecting →
      step s = .next { s with schedule := rest }) ∧
    (s.schedule = .write (s.build.base + off) n v :: rest → s.busy = true → step s = .refused .busyHazard) ∧
    (s.schedule = .read (s.build.base + off) n :: rest → s.busy = false →
      step s = .next { s with schedule := rest, readLog := 0 :: s.readLog })

/-- 45_session.md R222 (with 10_state.md R21, R24 and 44_indexer.md R194 for the values): what every 32-bit read
returns with BUSY = 0. WORDn's value is WordWindowShowsTheSelectedWord; STATUS while busy is StatusWhileBusyIsFree. -/
def Obligations.RegisterReads : Prop :=
  ∀ (s : State) (rest : List Event) (off : Nat), s.busy = false → off < 0x1000 → off % 4 = 0 →
    s.schedule = .read (s.build.base + off) 4 :: rest →
    ∃ v : Word, step s = .next { s with schedule := rest, readLog := v :: s.readLog } ∧
      (off = 0x000 → v = 0x42390001) ∧
      (off = 0x004 → v = cfgWord s.build) ∧
      (off = 0x008 → v = 0) ∧
      (off = 0x00C → v.toNat = s.fatal.toNat * 256 + errCode s.err * 16 + phaseCode s.phase) ∧
      (off = 0x010 → v.toNat = s.errinfo.toNat) ∧
      (off = 0x014 → v.toNat = s.inlen.toNat) ∧
      (off = 0x018 → v.toNat = s.csum.toNat) ∧
      (off = 0x01C → v.toNat = s.wsel.toNat) ∧
      (∀ i < 24, off = 0x100 + 4 * i → v.toNat = if i < wordCount s.build.w then (s.idxAt i).toNat else 0) ∧
      ((0x030 ≤ off ∧ off < 0x100) ∨ 0x160 ≤ off → v = 0)

/-- 20_memory.md R72: a read changes no register, no buffer and nothing of the RNG, and repeated reads of one location
return the same value (STATUS while busy excepted). -/
def Obligations.ReadsChangeNothing : Prop :=
  (∀ (s t : State) (addr n : Nat) (rest : List Event), s.schedule = .read addr n :: rest → step s = .next t →
    s.SameBlock t ∧ t.rngReady = s.rngReady ∧ t.rngRequests = s.rngRequests ∧ t.schedule = rest) ∧
  ∀ (s t u : State) (addr n : Nat) (rest : List Event), s.schedule = .read addr n :: .read addr n :: rest →
    s.busy = false → step s = .next t → step t = .next u →
    u.readLog = s.readLog ∨ ∃ v, t.readLog = v :: s.readLog ∧ u.readLog = v :: v :: s.readLog

/-- 10_state.md R31, R32 and 60_exceptions.md R255: no read depends on INBUF or EBUF, so staged input and committed
entropy cannot be read back: two states that differ only there read alike. -/
def Obligations.StagedInputAndEntropyCannotBeRead : Prop :=
  ∀ (s t : State) (m : Memory) (e : List Bool) (addr n : Nat) (rest : List Event),
    s.schedule = .read addr n :: rest → step s = .next t →
    step { s with inbuf := m, ebuf := e } = .next { t with inbuf := m, ebuf := e }

/-- 20_memory.md R64: an access with a first byte in the window has a next state exactly where it is admitted (4 bytes
at a multiple of 4, or 1 or 2 aligned bytes of INBUF), when BUSY = 0; any other access is stuck, as the fault that log
8 names. -/
def Obligations.OtherAccessesAreNotAdmitted : Prop :=
  ∀ (s : State) (e : Event) (rest : List Event) (off n : Nat), s.schedule = e :: rest → off < 0x1000 → 1 ≤ n →
    (e = .read (s.build.base + off) n ∨ ∃ v, e = .write (s.build.base + off) n v) →
    (¬((n = 4 ∧ off % 4 = 0) ∨ (0x400 ≤ off ∧ off + n ≤ 0x500 ∧ (n = 1 ∨ n = 2) ∧ off % n = 0)) →
      step s = .fault .notAdmitted) ∧
    ((n = 4 ∧ off % 4 = 0) ∨ (0x400 ≤ off ∧ off + n ≤ 0x500 ∧ (n = 1 ∨ n = 2) ∧ off % n = 0) → s.busy = false →
      ∃ t, step s = .next t)

/-- 70_reset_and_hazards.md R280: while BUSY = 1 every admitted access other than a STATUS read is refused, and a
STATUS read is not. -/
def Obligations.AccessesWhileBusyAreRefused : Prop :=
  ∀ (s : State) (e : Event) (rest : List Event) (off n : Nat), s.busy = true → s.schedule = e :: rest → off < 0x1000 →
    (n = 4 ∧ off % 4 = 0) ∨ (0x400 ≤ off ∧ off + n ≤ 0x500 ∧ (n = 1 ∨ n = 2) ∧ off % n = 0) →
    (((e = .read (s.build.base + off) n ∧ off ≠ 0x00C) ∨ ∃ v, e = .write (s.build.base + off) n v) →
      step s = .refused .busyHazard) ∧
    (e = .read (s.build.base + off) n → off = 0x00C → ∃ t, step s = .next t)

/-- 45_session.md R217, whole: while BUSY = 1 a STATUS read returns bit [3] = 1 and bits [8:4] and [2:0] as a free
value (log 6 gives the free value its form); bits [31:9] read 0 (10_state.md R24); once BUSY = 0 the read is exact. -/
def Obligations.StatusWhileBusyIsFree : Prop :=
  (∀ (s : State) (rest : List Event), s.busy = true → s.schedule = .read (s.build.base + 0x00C) 4 :: rest →
    ∃ v : Word,
      step s = .next { s with schedule := rest, draws := s.draws + 1, readLog := v :: s.readLog } ∧
      v.getLsbD 3 = true ∧ (∀ i, 9 ≤ i → v.getLsbD i = false) ∧
      ∀ i < 9, i ≠ 3 → v.getLsbD i = (Config.busyStatus s.draws).getLsbD i) ∧
  ∀ (s : State) (rest : List Event), s.busy = false → s.schedule = .read (s.build.base + 0x00C) 4 :: rest →
    ∃ v : Word, step s = .next { s with schedule := rest, readLog := v :: s.readLog } ∧
      v.toNat = s.fatal.toNat * 256 + errCode s.err * 16 + phaseCode s.phase

/-! ### The fatal state and reset -/

/-- 60_exceptions.md R246, 10_state.md R28: from a fatal state, no step but reset changes any register or buffer;
every admitted write is a step that only uses up the access. -/
def Obligations.FatalStateIsLockedUntilReset : Prop :=
  (∀ s t : State, s.Inv → s.fatal = true → s.nextEvent ≠ .reset → step s = .next t → s.SameBlock t) ∧
  ∀ (s : State) (rest : List Event) (off : Nat) (v : Word), s.Inv → s.fatal = true → off < 0x1000 → off % 4 = 0 →
    s.schedule = .write (s.build.base + off) 4 v :: rest → step s = .next { s with schedule := rest }

/-- 70_reset_and_hazards.md R270 and R273: reset, at any time, sets every register to its reset value, keeps the
build, and does not touch the RNG. -/
def Obligations.ResetRestoresEveryRegister : Prop :=
  ∀ (s : State) (rest : List Event), s.schedule = .reset :: rest →
    step s = .next { s with schedule := rest, phase := .idle, err := .ok, fatal := false, errinfo := 0, inlen := 0,
                            inbuf := [], ebuf := List.replicate (entBits s.build.w) false, csum := 0,
                            idx := Vector.replicate 24 0, wsel := 0, pending := none }

/-- 10_state.md R44, whole, row by row, in every build (CleanEntry is the reset state of a build). The model's reset
state is one. -/
def Obligations.ResetValues : Prop :=
  State.reset.CleanEntry ∧
  ∀ s : State, s.CleanEntry →
    readReg s .id = 0x42390001 ∧ readReg s .cfg = cfgWord s.build ∧
    phaseCode s.phase = 0 ∧ s.busy = false ∧ errCode s.err = 0 ∧ s.fatal = false ∧ s.errinfo = 0 ∧ s.inlen = 0 ∧
    (∀ k, s.inbufByte k = 0) ∧ s.ebuf = List.replicate (entBits s.build.w) false ∧ s.csum = 0 ∧
    (∀ i, s.idxAt i = 0) ∧ s.wsel = 0 ∧ s.pending = none

/-- 70_reset_and_hazards.md R277: CleanEntry gives PHASE = IDLE, FATAL = 0 and PENDING = none, and meets the
invariants of 10_state.md R43. -/
def Obligations.CleanEntryIsIdleAndUnlocked : Prop :=
  ∀ s : State, s.CleanEntry → s.phase = .idle ∧ s.fatal = false ∧ s.pending = none ∧ s.Inv

/-! ### Invariants -/

/-- 10_state.md R43: "reset establishes them". -/
def Obligations.InvariantsHoldAtReset : Prop := State.reset.Inv

/-- 10_state.md R43: "Every rule of this spec preserves them": from every state that meets the invariants, every step
gives one that does, whatever the host does, whatever the RNG answers, in every build. -/
def Obligations.InvariantsAreKept : Prop :=
  ∀ s t : State, s.Inv → step s = .next t → t.Inv

/-- 60_exceptions.md R240, R241 at reset. -/
def Obligations.ReportsAreSoundAtReset : Prop := State.reset.ReportInv

/-- 60_exceptions.md R240, R241, R246: every step keeps ERR and ERRINFO in agreement, and the fatal codes exactly
while FATAL = 1. -/
def Obligations.ReportsStaySound : Prop :=
  ∀ s t : State, s.ReportInv → step s = .next t → t.ReportInv

/-- 45_session.md R220: two blocks of one build, whatever their earlier sessions, hold the same session state after
OPEN, all of it zero; and OPEN finds the input zero already (R211's corner case, the spec's own inference). -/
def Obligations.SessionsAreIndependent : Prop :=
  ∀ s s' t t' : State, s.Inv → s'.Inv → s.build = s'.build → s.fatal = false → s'.fatal = false →
    (s.phase = .idle ∨ s.phase = .done) → (s'.phase = .idle ∨ s'.phase = .done) →
    exec .openSession s = .next t → exec .openSession s' = .next t' →
    s.inbuf = [] ∧ s'.inbuf = [] ∧ s.inlen = 0 ∧ s'.inlen = 0 ∧
    t.phase = .collecting ∧ t'.phase = .collecting ∧
    t.inbuf = [] ∧ t'.inbuf = [] ∧ t.inlen = 0 ∧ t'.inlen = 0 ∧
    t.ebuf = zeroEntropy s.build ∧ t'.ebuf = zeroEntropy s.build ∧ t.csum = 0 ∧ t'.csum = 0 ∧
    t.idx = zeroIdx ∧ t'.idx = zeroIdx

/-! ### Parameters -/

/-- 00_scope.md R8, R9, R10: the sizes of every build, and that the dice output fits ENT_BITS exactly where W = 24. -/
def Obligations.SizesOfEveryBuild : Prop :=
  ∀ b : Build, wordCount b.w % 3 = 0 ∧ 3 ≤ wordCount b.w ∧ wordCount b.w ≤ 24 ∧
    totalBits b.w = 11 * wordCount b.w ∧ 33 * csumBits b.w = totalBits b.w ∧ csumBits b.w = wordCount b.w / 3 ∧
    entBits b.w + csumBits b.w = totalBits b.w ∧ 3 * entBits b.w = 32 * wordCount b.w ∧
    8 * entBytes b.w = entBits b.w ∧ rolls b.w = (wordCount b.w - 1) * 4 + 3 ∧
    (b.dicePresent = true ↔ wordCount b.w = 24) ∧
    (11 * (wordCount b.w - 1) + 3 = entBits b.w ↔ b.dicePresent = true)

/-- 10_state.md R22: CFG's fields in every build, and its value at W = 24 and W = 12. -/
def Obligations.CfgReportsTheBuild : Prop :=
  ∀ b : Build,
    ((cfgWord b).extractLsb 4 0).toNat = wordCount b.w ∧ (cfgWord b).extractLsb 7 5 = 0 ∧
    ((cfgWord b).extractLsb 11 8).toNat = csumBits b.w ∧ (cfgWord b).extractLsb 15 12 = 0 ∧
    ((cfgWord b).extractLsb 24 16).toNat = entBits b.w ∧ (cfgWord b).extractLsb 27 25 = 0 ∧
    (cfgWord b).getLsbD 28 = b.dicePresent ∧ (cfgWord b).extractLsb 31 29 = 0 ∧
    (b.w = .w24 → cfgWord b = 0x11000818) ∧ (b.w = .w12 → cfgWord b = 0x0080040C)
end

