-- ==== Sys2Proof/Laws/Bits.lean ====
section
/-! SUPPORT. Laws of bit sequences, of the derived sizes, and the lengths of every sequence the encoders build. -/

namespace Sys2Proof.Machine

/-! ### Sequences and integers -/

@[simp] theorem uint_nil : uint [] = 0 := rfl

theorem uint_foldl (s : List Bool) (a : Nat) :
    s.foldl (fun acc b => 2 * acc + b.toNat) a = a * 2 ^ s.length + uint s := by
  induction s generalizing a with
  | nil => simp
  | cons b s ih =>
    simp only [List.foldl_cons, List.length_cons, uint]
    rw [ih, ih (2 * 0 + b.toNat)]
    ring

theorem uint_cons (b : Bool) (s : List Bool) : uint (b :: s) = b.toNat * 2 ^ s.length + uint s := by
  have h := uint_foldl s (2 * 0 + b.toNat)
  simpa [uint] using h

theorem uint_append (s t : List Bool) : uint (s ++ t) = uint s * 2 ^ t.length + uint t := by
  rw [uint, List.foldl_append, uint_foldl]
  rfl

theorem uint_lt (s : List Bool) : uint s < 2 ^ s.length := by
  induction s with
  | nil => simp
  | cons b s ih =>
    rw [uint_cons, List.length_cons, pow_succ]
    have := Bool.toNat_le b
    nlinarith

theorem uint_lt_of_length {s : List Bool} {n : Nat} (h : s.length ≤ n) : uint s < 2 ^ n :=
  lt_of_lt_of_le (uint_lt s) (Nat.pow_le_pow_right (by decide) h)

@[simp] theorem length_seqOf (n v : Nat) : (seqOf n v).length = n := by simp [seqOf]

@[simp] theorem getElem_seqOf (n v k : Nat) (h : k < (seqOf n v).length) :
    (seqOf n v)[k] = v.testBit (n - 1 - k) := by simp [seqOf]

/-- The first position of a sequence is its most significant bit. -/
theorem seqOf_succ (n v : Nat) : seqOf (n + 1) v = v.testBit n :: seqOf n v := by
  simp only [seqOf, List.range_succ_eq_map, List.map_cons, List.map_map, List.cons.injEq]
  refine ⟨by simp, List.map_congr_left fun k _ => ?_⟩
  simp only [Function.comp, Nat.succ_eq_add_one]
  congr 1
  omega

/-- The low n + 1 bits are bit n and the low n bits. -/
theorem mod_pow_succ_bit (v n : Nat) : v % 2 ^ (n + 1) = (v.testBit n).toNat * 2 ^ n + v % 2 ^ n := by
  rw [Nat.mod_pow_succ, Nat.testBit_eq_decide_div_mod_eq]
  rcases Nat.mod_two_eq_zero_or_one (v / 2 ^ n) with h | h <;> simp [h, Nat.add_comm]

/-- uint undoes seq_n on the low n bits. -/
theorem uint_seqOf (n v : Nat) : uint (seqOf n v) = v % 2 ^ n := by
  induction n with
  | zero => simp [seqOf, Nat.mod_one]
  | succ n ih => rw [seqOf_succ, uint_cons, ih, length_seqOf, mod_pow_succ_bit]

/-- seq_n undoes uint on sequences of length n. -/
theorem seqOf_uint (s : List Bool) : seqOf s.length (uint s) = s := by
  have key : ∀ (t : List Bool) (v : Nat), v % 2 ^ t.length = uint t → seqOf t.length v = t := by
    intro t
    induction t with
    | nil => intro v _; rfl
    | cons b t ih =>
      intro v hv
      rw [List.length_cons, mod_pow_succ_bit, uint_cons] at hv
      have h1 : v % 2 ^ t.length < 2 ^ t.length := Nat.mod_lt _ (Nat.two_pow_pos _)
      have h2 := uint_lt t
      have hb : v.testBit t.length = b := by
        cases hb : b <;> cases hv' : v.testBit t.length <;> simp [hb, hv'] at hv ⊢ <;> omega
      rw [List.length_cons, seqOf_succ, hb, ih v]
      rw [hb] at hv
      cases b <;> simp at hv <;> omega
  exact key s _ (Nat.mod_eq_of_lt (uint_lt s))

theorem seqOf_uint_of_length {s : List Bool} {n : Nat} (h : s.length = n) : seqOf n (uint s) = s := h ▸ seqOf_uint s

/-- uint is injective on sequences of one length. -/
theorem uint_inj {s t : List Bool} (hl : s.length = t.length) (h : uint s = uint t) : s = t := by
  rw [← seqOf_uint s, ← seqOf_uint t, hl, h]

@[simp] theorem length_slice (s : List Bool) (a n : Nat) : (slice s a n).length = min n (s.length - a) := by
  simp [slice]

/-- A slice that ends inside the first part of a concatenation is a slice of that part. -/
theorem slice_append_left {s t : List Bool} {a n : Nat} (h : a + n ≤ s.length) :
    slice (s ++ t) a n = slice s a n := by
  rw [slice, List.drop_append_of_le_length (by omega), List.take_append_of_le_length (by simp; omega), slice]

/-- A slice that reaches the end is the rest of the sequence. -/
theorem slice_eq_drop {s : List Bool} {a n : Nat} (h : s.length ≤ a + n) : slice s a n = s.drop a := by
  rw [slice, List.take_of_length_le (by simp; omega)]

/-- The slices of one width, put together, are the prefix they cover. -/
theorem flatMap_slice (s : List Bool) (n k : Nat) :
    (List.range k).flatMap (fun i => slice s (n * i) n) = s.take (n * k) := by
  induction k with
  | zero => simp
  | succ k ih =>
    rw [List.range_succ, List.flatMap_append, ih, Nat.mul_succ, List.take_add]
    simp [slice]

/-- Cutting a concatenation of pieces of one width at a multiple of the width gives the piece. -/
theorem slice_flatMap {n k m : Nat} {f : Nat → List Bool} {t : List Bool} (hf : ∀ i < k, (f i).length = n)
    (hm : m < k) : slice ((List.range k).flatMap f ++ t) (n * m) n = f m := by
  induction k generalizing t with
  | zero => omega
  | succ k ih =>
    rw [List.range_succ, List.flatMap_append, List.append_assoc]
    by_cases h : m = k
    · subst h
      have hl : ((List.range m).flatMap f).length = n * m := by
        rw [List.length_flatMap, List.map_congr_left (g := fun _ => n) fun i h => hf i (by simp at h; omega)]
        simp [Nat.mul_comm]
      rw [slice, List.drop_left' hl]
      simp [hf m (by omega)]
    · exact ih (fun i h => hf i (by omega)) (by omega)

@[simp] theorem length_bitsOf (b : List Byte) : (bitsOf b).length = 8 * b.length := by
  induction b with
  | nil => rfl
  | cons x b ih => simp [bitsOf] at ih ⊢; omega

@[simp] theorem length_bytesOf (s : List Bool) : (bytesOf s).length = s.length / 8 := by simp [bytesOf]

/-- bytes_of undoes bits_of (00_scope.md R18: "bits_of(B) is the inverse"). -/
theorem bytesOf_bitsOf (b : List Byte) : bytesOf (bitsOf b) = b := by
  have hs : ∀ (b : List Byte) (k : Nat) (h : k < b.length),
      slice (bitsOf b) (8 * k) 8 = seqOf 8 (b[k]).toNat := by
    intro b
    induction b with
    | nil => intro k h; simp at h
    | cons x b ih =>
      intro k h
      have hc : bitsOf (x :: b) = seqOf 8 x.toNat ++ bitsOf b := by simp [bitsOf]
      cases k with
      | zero => simp [slice, hc]
      | succ k =>
        rw [List.getElem_cons_succ, ← ih k (by simpa using h), slice, hc, show 8 * (k + 1) = 8 + 8 * k by omega,
          ← List.drop_drop, List.drop_left' (by simp)]
        rfl
  apply List.ext_getElem
  · simp
  · intro k h1 h2
    simp only [bytesOf, List.getElem_map, List.getElem_range]
    rw [hs b k h2, uint_seqOf]
    apply BitVec.eq_of_toNat_eq
    simpa using (b[k]).isLt

/-! ### Derived sizes (00_scope.md R9, R10) -/

theorem wordCount_eq (w : WordCount) : wordCount w = 3 * csumBits w := by cases w <;> rfl

theorem csumBits_eq_third (w : WordCount) : csumBits w = w.third := by cases w <;> rfl

theorem entBits_eq (w : WordCount) : entBits w = 32 * csumBits w := by cases w <;> rfl

theorem entBytes_eq (w : WordCount) : entBytes w = 4 * csumBits w := by cases w <;> rfl

theorem entBits_eq_bytes (w : WordCount) : entBits w = 8 * entBytes w := by cases w <;> rfl

theorem totalBits_eq (w : WordCount) : totalBits w = entBits w + csumBits w := by cases w <;> rfl

theorem csumBits_pos (w : WordCount) : 1 ≤ csumBits w := by cases w <;> decide

theorem csumBits_le (w : WordCount) : csumBits w ≤ 8 := by cases w <;> decide

theorem entBits_le (w : WordCount) : entBits w ≤ 256 := by cases w <;> decide

theorem wordCount_le (w : WordCount) : wordCount w ≤ 24 := by cases w <;> decide

theorem wordCount_pos (w : WordCount) : 1 ≤ wordCount w := by cases w <;> decide

theorem dicePresent_iff (b : Build) : b.dicePresent = true ↔ b.w = .w24 := by simp [Build.dicePresent]

/-! ### Lengths -/

@[simp] theorem length_zeroEntropy (b : Build) : (zeroEntropy b).length = entBits b.w := by simp [zeroEntropy]

@[simp] theorem length_coinEncode (n : Nat) (f : Nat → Byte) : (coinEncode n f).length = n := by simp [coinEncode]

@[simp] theorem length_diceEncode (w : Nat) (r : Nat → Nat) : (diceEncode w r).length = 11 * (w - 1) + 3 := by
  simp [diceEncode, List.length_flatMap, Nat.mul_comm]

/-- The dice output has ENT_BITS bits in the one build that has dice (41_dice_fold.md R145). -/
theorem length_diceEncode_entBits {b : Build} (h : b.dicePresent = true) (r : Nat → Nat) :
    (diceEncode (wordCount b.w) r).length = entBits b.w := by
  rw [dicePresent_iff] at h
  simp [h, wordCount, entBits, totalBits, csumBits]

@[simp] theorem length_combined (b : Build) (e : List Bool) (c : BitVec 8) :
    (combined b e c).length = e.length + csumBits b.w := by simp [combined]

/-- The checksum is below 2^CSUM_BITS (42_checksum.md R160). -/
theorem checksum_lt (b : Build) (e : List Bool) : checksum b e < 2 ^ csumBits b.w :=
  uint_lt_of_length (by simp)

theorem checksum_lt_256 (b : Build) (e : List Bool) : checksum b e < 256 :=
  lt_of_lt_of_le (checksum_lt b e) (Nat.pow_le_pow_right (by decide) (csumBits_le b.w))

/-- CSUM's eight bits hold the checksum. -/
@[simp] theorem toNat_checksum (b : Build) (e : List Bool) : (BitVec.ofNat 8 (checksum b e)).toNat = checksum b e := by
  simpa using Nat.mod_eq_of_lt (checksum_lt_256 b e)

/-! ### IDX -/

theorem uint_slice_lt (s : List Bool) (a : Nat) : uint (slice s a 11) < 2048 :=
  uint_lt_of_length (n := 11) (by simp)

/-- An index is its slice, with no masking (44_indexer.md R191 item 3). -/
@[simp] theorem toNat_sliceIndex (cb : List Bool) (i : Nat) :
    (sliceIndex cb i).toNat = uint (slice cb (11 * i) 11) := by
  simpa [sliceIndex] using Nat.mod_eq_of_lt (uint_slice_lt cb (11 * i))

theorem getElem_deriveIdx (b : Build) (e : List Bool) (c : BitVec 8) (old : Vector (BitVec 11) 24) (i : Nat)
    (h : i < 24) :
    (deriveIdx b e c old)[i] = if i < wordCount b.w then sliceIndex (combined b e c) i else old[i] := by
  simp [deriveIdx]

/-- IDX[i] of a state whose registers DERIVE wrote, the others zero before. -/
theorem idxAt_of_deriveIdx {s : State} {b : Build} {e : List Bool} {c : BitVec 8}
    (h : s.idx = deriveIdx b e c zeroIdx) (i : Nat) :
    s.idxAt i = if i < wordCount b.w then sliceIndex (combined b e c) i else 0 := by
  unfold State.idxAt
  split
  · simp [h, getElem_deriveIdx, zeroIdx]
  · have := wordCount_le b.w
    rw [if_neg (by omega)]

theorem idxAt_of_zero {s : State} (h : s.idx = zeroIdx) (i : Nat) : s.idxAt i = 0 := by
  simp [State.idxAt, h, zeroIdx]

end Sys2Proof.Machine
end

