-- ==== Sys2Proof/Laws/Memory.lean ====
section
/-! SUPPORT. Laws of INBUF's canonical list: every write keeps the form, a read after a write to the same position gives
the value written, and every other position reads as before. -/

namespace Sys2Proof.Machine

@[simp] theorem Memory.wf_nil : Memory.wf [] := by simp [Memory.wf]

@[simp] theorem Memory.read_nil (k : Nat) : Memory.read [] k = 0 := rfl

theorem Memory.read_cons (x : Nat) (y : Byte) (m : Memory) (k : Nat) :
    Memory.read ((x, y) :: m) k = if k = x then y else Memory.read m k := by
  by_cases h : k = x
  · simp [Memory.read, h]
  · simp [Memory.read, List.lookup_cons, beq_false_of_ne h, if_neg h]

theorem Memory.wf_tail {c : Host.Cell} {m : Memory} (h : Memory.wf (c :: m)) : Memory.wf m :=
  ⟨(List.pairwise_cons.1 h.1).2, fun x hx => h.2 x (List.mem_cons_of_mem _ hx)⟩

/-- A position not listed reads 0. -/
theorem Memory.read_eq_zero {m : Memory} {k : Nat} (h : ∀ x ∈ m, x.1 ≠ k) : Memory.read m k = 0 := by
  induction m with
  | nil => rfl
  | cons c m ih =>
    obtain ⟨x, y⟩ := c
    rw [Memory.read_cons, if_neg fun he => h (x, y) (by simp) he.symm, ih fun z hz => h z (by simp [hz])]

/-- Whatever is written lists only the old positions and the new one. -/
theorem Memory.mem_write {m : Memory} {k : Nat} {b : Byte} {c : Host.Cell} (h : c ∈ Memory.write m k b) :
    c ∈ m ∨ (c = (k, b) ∧ b ≠ 0) := by
  induction m with
  | nil => simp only [Memory.write] at h; split at h <;> simp_all
  | cons d m ih =>
    obtain ⟨x, y⟩ := d
    simp only [Memory.write] at h
    split at h
    · split at h <;> simp_all; tauto
    · split at h
      · split at h <;> simp_all; tauto
      · rcases List.mem_cons.1 h with rfl | h
        · simp
        · rcases ih h with h | h
          · exact .inl (List.mem_cons_of_mem _ h)
          · exact .inr h

/-- A write keeps the canonical form. -/
theorem Memory.wf_write {m : Memory} {k : Nat} {b : Byte} (h : Memory.wf m) (hk : k < 256) :
    Memory.wf (Memory.write m k b) := by
  refine ⟨?_, fun c hc => ?_⟩
  · induction m with
    | nil => simp only [Memory.write]; split <;> simp
    | cons d m ih =>
      obtain ⟨x, y⟩ := d
      obtain ⟨hx, hm⟩ := List.pairwise_cons.1 h.1
      simp only [Memory.write]
      split
      next hlt =>
        split
        · exact h.1
        · refine List.pairwise_cons.2 ⟨fun c hc => ?_, h.1⟩
          rcases List.mem_cons.1 hc with rfl | hc
          · exact hlt
          · exact hlt.trans (hx c hc)
      next hge =>
        split
        next heq =>
          subst heq
          split
          · exact hm
          · exact List.pairwise_cons.2 ⟨hx, hm⟩
        next hne =>
          refine List.pairwise_cons.2 ⟨fun c hc => ?_, ih (Memory.wf_tail h)⟩
          rcases Memory.mem_write hc with hc | ⟨rfl, -⟩
          · exact hx c hc
          · show x < k; omega
  · rcases Memory.mem_write hc with hc | ⟨rfl, hb⟩
    · exact h.2 c hc
    · exact ⟨hk, hb⟩

/-- A write leaves every other position as it was. -/
theorem Memory.read_write_ne (m : Memory) {k j : Nat} (b : Byte) (h : j ≠ k) :
    Memory.read (Memory.write m k b) j = Memory.read m j := by
  induction m with
  | nil =>
    simp only [Memory.write]
    split
    · rfl
    · rw [Memory.read_cons, if_neg h]
  | cons d m ih =>
    obtain ⟨x, y⟩ := d
    simp only [Memory.write]
    split
    · split
      · rfl
      · rw [Memory.read_cons k, if_neg h]
    · split
      next heq =>
        subst heq
        split <;> simp [Memory.read_cons, h]
      next => simp [Memory.read_cons, ih]

/-- A read after a write to the same position gives the value written. -/
theorem Memory.read_write_self {m : Memory} (hm : Memory.wf m) (k : Nat) (b : Byte) :
    Memory.read (Memory.write m k b) k = b := by
  induction m with
  | nil => simp only [Memory.write]; split <;> simp_all [Memory.read_cons]
  | cons d m ih =>
    obtain ⟨x, y⟩ := d
    have hx := (List.pairwise_cons.1 hm.1).1
    simp only [Memory.write]
    split
    next hlt =>
      split
      next hb =>
        rw [hb]
        refine Memory.read_eq_zero fun c hc => ?_
        rcases List.mem_cons.1 hc with rfl | hc
        · exact fun h => by simp at h; omega
        · have := hx c hc; simp at this; omega
      · simp [Memory.read_cons]
    next hge =>
      split
      next heq =>
        split
        next hb =>
          rw [hb]
          refine Memory.read_eq_zero fun c hc => ?_
          have := hx c hc; simp at this; omega
        · simp [Memory.read_cons]
      next hne => rw [Memory.read_cons, if_neg hne, ih (Memory.wf_tail hm)]

theorem Memory.store_succ (m : Memory) (k n : Nat) (v : Word) :
    Memory.store m k (n + 1) v = Memory.write (Memory.store m k n v) (k + n) (byteLane v n) := by
  simp [Memory.store, List.range_succ]

/-- A store of `n` bytes inside the 256 positions keeps the canonical form. -/
theorem Memory.wf_store {m : Memory} (h : Memory.wf m) (k n : Nat) (v : Word) (hk : k + n ≤ 256) :
    Memory.wf (Memory.store m k n v) := by
  induction n with
  | zero => simpa [Memory.store] using h
  | succ n ih => rw [Memory.store_succ]; exact Memory.wf_write (ih (by omega)) (by omega)

/-- A store of `n` bytes at `k`: position k + j has lane j, every other position is as it was. -/
theorem Memory.read_store {m : Memory} (h : Memory.wf m) (k n : Nat) (v : Word) (hk : k + n ≤ 256) (a : Nat) :
    Memory.read (Memory.store m k n v) a =
      if k ≤ a ∧ a < k + n then byteLane v (a - k) else Memory.read m a := by
  induction n with
  | zero =>
    rw [if_neg (by omega)]
    rfl
  | succ n ih =>
    rw [Memory.store_succ]
    by_cases ha : a = k + n
    · subst ha
      rw [Memory.read_write_self (Memory.wf_store h k n v (by omega)), if_pos (by omega)]
      congr 1
      omega
    · rw [Memory.read_write_ne _ _ ha, ih (by omega)]
      by_cases hin : k ≤ a ∧ a < k + n
      · rw [if_pos hin, if_pos (by omega)]
      · rw [if_neg hin, if_neg (by omega)]

end Sys2Proof.Machine
end

