-- ==== Sys2Proof/Laws/State.lean ====
section
/-! SUPPORT. One lemma per field per update of State, each true by rfl, so that no later proof unfolds a record update. -/

namespace Sys2Proof.Machine

variable (s : State)

@[simp] theorem State.raiseErr_build (c : ErrCode) (n : Nat) : (s.raiseErr c n).build = s.build := rfl
@[simp] theorem State.raiseErr_phase (c : ErrCode) (n : Nat) : (s.raiseErr c n).phase = s.phase := rfl
@[simp] theorem State.raiseErr_err (c : ErrCode) (n : Nat) : (s.raiseErr c n).err = c := rfl
@[simp] theorem State.raiseErr_fatal (c : ErrCode) (n : Nat) : (s.raiseErr c n).fatal = s.fatal := rfl
@[simp] theorem State.raiseErr_errinfo (c : ErrCode) (n : Nat) : (s.raiseErr c n).errinfo = BitVec.ofNat 16 n := rfl
@[simp] theorem State.raiseErr_inlen (c : ErrCode) (n : Nat) : (s.raiseErr c n).inlen = s.inlen := rfl
@[simp] theorem State.raiseErr_inbuf (c : ErrCode) (n : Nat) : (s.raiseErr c n).inbuf = s.inbuf := rfl
@[simp] theorem State.raiseErr_ebuf (c : ErrCode) (n : Nat) : (s.raiseErr c n).ebuf = s.ebuf := rfl
@[simp] theorem State.raiseErr_csum (c : ErrCode) (n : Nat) : (s.raiseErr c n).csum = s.csum := rfl
@[simp] theorem State.raiseErr_idx (c : ErrCode) (n : Nat) : (s.raiseErr c n).idx = s.idx := rfl
@[simp] theorem State.raiseErr_wsel (c : ErrCode) (n : Nat) : (s.raiseErr c n).wsel = s.wsel := rfl
@[simp] theorem State.raiseErr_pending (c : ErrCode) (n : Nat) : (s.raiseErr c n).pending = s.pending := rfl
@[simp] theorem State.raiseErr_schedule (c : ErrCode) (n : Nat) : (s.raiseErr c n).schedule = s.schedule := rfl
@[simp] theorem State.raiseErr_readLog (c : ErrCode) (n : Nat) : (s.raiseErr c n).readLog = s.readLog := rfl
@[simp] theorem State.raiseErr_rngReady (c : ErrCode) (n : Nat) : (s.raiseErr c n).rngReady = s.rngReady := rfl
@[simp] theorem State.raiseErr_rngRequests (c : ErrCode) (n : Nat) : (s.raiseErr c n).rngRequests = s.rngRequests := rfl
@[simp] theorem State.raiseErr_draws (c : ErrCode) (n : Nat) : (s.raiseErr c n).draws = s.draws := rfl

@[simp] theorem State.phaseError_build : s.phaseError.build = s.build := rfl
@[simp] theorem State.phaseError_phase : s.phaseError.phase = s.phase := rfl
@[simp] theorem State.phaseError_err : s.phaseError.err = .phase := rfl
@[simp] theorem State.phaseError_fatal : s.phaseError.fatal = s.fatal := rfl
@[simp] theorem State.phaseError_errinfo : s.phaseError.errinfo = BitVec.ofNat 16 (phaseCode s.phase) := rfl
@[simp] theorem State.phaseError_inlen : s.phaseError.inlen = s.inlen := rfl
@[simp] theorem State.phaseError_inbuf : s.phaseError.inbuf = s.inbuf := rfl
@[simp] theorem State.phaseError_ebuf : s.phaseError.ebuf = s.ebuf := rfl
@[simp] theorem State.phaseError_csum : s.phaseError.csum = s.csum := rfl
@[simp] theorem State.phaseError_idx : s.phaseError.idx = s.idx := rfl
@[simp] theorem State.phaseError_wsel : s.phaseError.wsel = s.wsel := rfl
@[simp] theorem State.phaseError_pending : s.phaseError.pending = s.pending := rfl
@[simp] theorem State.phaseError_schedule : s.phaseError.schedule = s.schedule := rfl
@[simp] theorem State.phaseError_readLog : s.phaseError.readLog = s.readLog := rfl
@[simp] theorem State.phaseError_rngReady : s.phaseError.rngReady = s.rngReady := rfl
@[simp] theorem State.phaseError_rngRequests : s.phaseError.rngRequests = s.rngRequests := rfl
@[simp] theorem State.phaseError_draws : s.phaseError.draws = s.draws := rfl

@[simp] theorem State.illegalCommand_build (c : Word) : (s.illegalCommand c).build = s.build := rfl
@[simp] theorem State.illegalCommand_phase (c : Word) : (s.illegalCommand c).phase = s.phase := rfl
@[simp] theorem State.illegalCommand_err (c : Word) : (s.illegalCommand c).err = .illegalCmd := rfl
@[simp] theorem State.illegalCommand_fatal (c : Word) : (s.illegalCommand c).fatal = s.fatal := rfl
@[simp] theorem State.illegalCommand_errinfo (c : Word) : (s.illegalCommand c).errinfo = BitVec.ofNat 16 (c.extractLsb 15 0).toNat := rfl
@[simp] theorem State.illegalCommand_inlen (c : Word) : (s.illegalCommand c).inlen = s.inlen := rfl
@[simp] theorem State.illegalCommand_inbuf (c : Word) : (s.illegalCommand c).inbuf = s.inbuf := rfl
@[simp] theorem State.illegalCommand_ebuf (c : Word) : (s.illegalCommand c).ebuf = s.ebuf := rfl
@[simp] theorem State.illegalCommand_csum (c : Word) : (s.illegalCommand c).csum = s.csum := rfl
@[simp] theorem State.illegalCommand_idx (c : Word) : (s.illegalCommand c).idx = s.idx := rfl
@[simp] theorem State.illegalCommand_wsel (c : Word) : (s.illegalCommand c).wsel = s.wsel := rfl
@[simp] theorem State.illegalCommand_pending (c : Word) : (s.illegalCommand c).pending = s.pending := rfl
@[simp] theorem State.illegalCommand_schedule (c : Word) : (s.illegalCommand c).schedule = s.schedule := rfl
@[simp] theorem State.illegalCommand_readLog (c : Word) : (s.illegalCommand c).readLog = s.readLog := rfl
@[simp] theorem State.illegalCommand_rngReady (c : Word) : (s.illegalCommand c).rngReady = s.rngReady := rfl
@[simp] theorem State.illegalCommand_rngRequests (c : Word) : (s.illegalCommand c).rngRequests = s.rngRequests := rfl
@[simp] theorem State.illegalCommand_draws (c : Word) : (s.illegalCommand c).draws = s.draws := rfl

@[simp] theorem State.succeed_build (p : Phase) : (s.succeed p).build = s.build := rfl
@[simp] theorem State.succeed_phase (p : Phase) : (s.succeed p).phase = p := rfl
@[simp] theorem State.succeed_err (p : Phase) : (s.succeed p).err = .ok := rfl
@[simp] theorem State.succeed_fatal (p : Phase) : (s.succeed p).fatal = s.fatal := rfl
@[simp] theorem State.succeed_errinfo (p : Phase) : (s.succeed p).errinfo = 0 := rfl
@[simp] theorem State.succeed_inlen (p : Phase) : (s.succeed p).inlen = s.inlen := rfl
@[simp] theorem State.succeed_inbuf (p : Phase) : (s.succeed p).inbuf = s.inbuf := rfl
@[simp] theorem State.succeed_ebuf (p : Phase) : (s.succeed p).ebuf = s.ebuf := rfl
@[simp] theorem State.succeed_csum (p : Phase) : (s.succeed p).csum = s.csum := rfl
@[simp] theorem State.succeed_idx (p : Phase) : (s.succeed p).idx = s.idx := rfl
@[simp] theorem State.succeed_wsel (p : Phase) : (s.succeed p).wsel = s.wsel := rfl
@[simp] theorem State.succeed_pending (p : Phase) : (s.succeed p).pending = s.pending := rfl
@[simp] theorem State.succeed_schedule (p : Phase) : (s.succeed p).schedule = s.schedule := rfl
@[simp] theorem State.succeed_readLog (p : Phase) : (s.succeed p).readLog = s.readLog := rfl
@[simp] theorem State.succeed_rngReady (p : Phase) : (s.succeed p).rngReady = s.rngReady := rfl
@[simp] theorem State.succeed_rngRequests (p : Phase) : (s.succeed p).rngRequests = s.rngRequests := rfl
@[simp] theorem State.succeed_draws (p : Phase) : (s.succeed p).draws = s.draws := rfl

@[simp] theorem State.clearInput_build : s.clearInput.build = s.build := rfl
@[simp] theorem State.clearInput_phase : s.clearInput.phase = s.phase := rfl
@[simp] theorem State.clearInput_err : s.clearInput.err = s.err := rfl
@[simp] theorem State.clearInput_fatal : s.clearInput.fatal = s.fatal := rfl
@[simp] theorem State.clearInput_errinfo : s.clearInput.errinfo = s.errinfo := rfl
@[simp] theorem State.clearInput_inlen : s.clearInput.inlen = 0 := rfl
@[simp] theorem State.clearInput_inbuf : s.clearInput.inbuf = [] := rfl
@[simp] theorem State.clearInput_ebuf : s.clearInput.ebuf = s.ebuf := rfl
@[simp] theorem State.clearInput_csum : s.clearInput.csum = s.csum := rfl
@[simp] theorem State.clearInput_idx : s.clearInput.idx = s.idx := rfl
@[simp] theorem State.clearInput_wsel : s.clearInput.wsel = s.wsel := rfl
@[simp] theorem State.clearInput_pending : s.clearInput.pending = s.pending := rfl
@[simp] theorem State.clearInput_schedule : s.clearInput.schedule = s.schedule := rfl
@[simp] theorem State.clearInput_readLog : s.clearInput.readLog = s.readLog := rfl
@[simp] theorem State.clearInput_rngReady : s.clearInput.rngReady = s.rngReady := rfl
@[simp] theorem State.clearInput_rngRequests : s.clearInput.rngRequests = s.rngRequests := rfl
@[simp] theorem State.clearInput_draws : s.clearInput.draws = s.draws := rfl

@[simp] theorem State.clearPhrase_build : s.clearPhrase.build = s.build := rfl
@[simp] theorem State.clearPhrase_phase : s.clearPhrase.phase = s.phase := rfl
@[simp] theorem State.clearPhrase_err : s.clearPhrase.err = s.err := rfl
@[simp] theorem State.clearPhrase_fatal : s.clearPhrase.fatal = s.fatal := rfl
@[simp] theorem State.clearPhrase_errinfo : s.clearPhrase.errinfo = s.errinfo := rfl
@[simp] theorem State.clearPhrase_inlen : s.clearPhrase.inlen = s.inlen := rfl
@[simp] theorem State.clearPhrase_inbuf : s.clearPhrase.inbuf = s.inbuf := rfl
@[simp] theorem State.clearPhrase_ebuf : s.clearPhrase.ebuf = zeroEntropy s.build := rfl
@[simp] theorem State.clearPhrase_csum : s.clearPhrase.csum = 0 := rfl
@[simp] theorem State.clearPhrase_idx : s.clearPhrase.idx = zeroIdx := rfl
@[simp] theorem State.clearPhrase_wsel : s.clearPhrase.wsel = 0 := rfl
@[simp] theorem State.clearPhrase_pending : s.clearPhrase.pending = s.pending := rfl
@[simp] theorem State.clearPhrase_schedule : s.clearPhrase.schedule = s.schedule := rfl
@[simp] theorem State.clearPhrase_readLog : s.clearPhrase.readLog = s.readLog := rfl
@[simp] theorem State.clearPhrase_rngReady : s.clearPhrase.rngReady = s.rngReady := rfl
@[simp] theorem State.clearPhrase_rngRequests : s.clearPhrase.rngRequests = s.rngRequests := rfl
@[simp] theorem State.clearPhrase_draws : s.clearPhrase.draws = s.draws := rfl

@[simp] theorem State.fatalEntry_build (c : ErrCode) : (s.fatalEntry c).build = s.build := rfl
@[simp] theorem State.fatalEntry_phase (c : ErrCode) : (s.fatalEntry c).phase = .idle := rfl
@[simp] theorem State.fatalEntry_err (c : ErrCode) : (s.fatalEntry c).err = c := rfl
@[simp] theorem State.fatalEntry_fatal (c : ErrCode) : (s.fatalEntry c).fatal = true := rfl
@[simp] theorem State.fatalEntry_errinfo (c : ErrCode) : (s.fatalEntry c).errinfo = 0 := rfl
@[simp] theorem State.fatalEntry_inlen (c : ErrCode) : (s.fatalEntry c).inlen = 0 := rfl
@[simp] theorem State.fatalEntry_inbuf (c : ErrCode) : (s.fatalEntry c).inbuf = [] := rfl
@[simp] theorem State.fatalEntry_ebuf (c : ErrCode) : (s.fatalEntry c).ebuf = zeroEntropy s.build := rfl
@[simp] theorem State.fatalEntry_csum (c : ErrCode) : (s.fatalEntry c).csum = 0 := rfl
@[simp] theorem State.fatalEntry_idx (c : ErrCode) : (s.fatalEntry c).idx = zeroIdx := rfl
@[simp] theorem State.fatalEntry_wsel (c : ErrCode) : (s.fatalEntry c).wsel = 0 := rfl
@[simp] theorem State.fatalEntry_pending (c : ErrCode) : (s.fatalEntry c).pending = s.pending := rfl
@[simp] theorem State.fatalEntry_schedule (c : ErrCode) : (s.fatalEntry c).schedule = s.schedule := rfl
@[simp] theorem State.fatalEntry_readLog (c : ErrCode) : (s.fatalEntry c).readLog = s.readLog := rfl
@[simp] theorem State.fatalEntry_rngReady (c : ErrCode) : (s.fatalEntry c).rngReady = s.rngReady := rfl
@[simp] theorem State.fatalEntry_rngRequests (c : ErrCode) : (s.fatalEntry c).rngRequests = s.rngRequests := rfl
@[simp] theorem State.fatalEntry_draws (c : ErrCode) : (s.fatalEntry c).draws = s.draws := rfl

@[simp] theorem State.commit_build (e : List Bool) : (s.commit e).build = s.build := rfl
@[simp] theorem State.commit_phase (e : List Bool) : (s.commit e).phase = .csumAppended := rfl
@[simp] theorem State.commit_err (e : List Bool) : (s.commit e).err = .ok := rfl
@[simp] theorem State.commit_fatal (e : List Bool) : (s.commit e).fatal = s.fatal := rfl
@[simp] theorem State.commit_errinfo (e : List Bool) : (s.commit e).errinfo = 0 := rfl
@[simp] theorem State.commit_inlen (e : List Bool) : (s.commit e).inlen = 0 := rfl
@[simp] theorem State.commit_inbuf (e : List Bool) : (s.commit e).inbuf = [] := rfl
@[simp] theorem State.commit_ebuf (e : List Bool) : (s.commit e).ebuf = e := rfl
@[simp] theorem State.commit_csum (e : List Bool) : (s.commit e).csum = BitVec.ofNat 8 (checksum s.build e) := rfl
@[simp] theorem State.commit_idx (e : List Bool) : (s.commit e).idx = s.idx := rfl
@[simp] theorem State.commit_wsel (e : List Bool) : (s.commit e).wsel = s.wsel := rfl
@[simp] theorem State.commit_pending (e : List Bool) : (s.commit e).pending = s.pending := rfl
@[simp] theorem State.commit_schedule (e : List Bool) : (s.commit e).schedule = s.schedule := rfl
@[simp] theorem State.commit_readLog (e : List Bool) : (s.commit e).readLog = s.readLog := rfl
@[simp] theorem State.commit_rngReady (e : List Bool) : (s.commit e).rngReady = s.rngReady := rfl
@[simp] theorem State.commit_rngRequests (e : List Bool) : (s.commit e).rngRequests = s.rngRequests := rfl
@[simp] theorem State.commit_draws (e : List Bool) : (s.commit e).draws = s.draws := rfl

@[simp] theorem State.clearPending_build : s.clearPending.build = s.build := rfl
@[simp] theorem State.clearPending_phase : s.clearPending.phase = s.phase := rfl
@[simp] theorem State.clearPending_err : s.clearPending.err = s.err := rfl
@[simp] theorem State.clearPending_fatal : s.clearPending.fatal = s.fatal := rfl
@[simp] theorem State.clearPending_errinfo : s.clearPending.errinfo = s.errinfo := rfl
@[simp] theorem State.clearPending_inlen : s.clearPending.inlen = s.inlen := rfl
@[simp] theorem State.clearPending_inbuf : s.clearPending.inbuf = s.inbuf := rfl
@[simp] theorem State.clearPending_ebuf : s.clearPending.ebuf = s.ebuf := rfl
@[simp] theorem State.clearPending_csum : s.clearPending.csum = s.csum := rfl
@[simp] theorem State.clearPending_idx : s.clearPending.idx = s.idx := rfl
@[simp] theorem State.clearPending_wsel : s.clearPending.wsel = s.wsel := rfl
@[simp] theorem State.clearPending_pending : s.clearPending.pending = none := rfl
@[simp] theorem State.clearPending_schedule : s.clearPending.schedule = s.schedule := rfl
@[simp] theorem State.clearPending_readLog : s.clearPending.readLog = s.readLog := rfl
@[simp] theorem State.clearPending_rngReady : s.clearPending.rngReady = s.rngReady := rfl
@[simp] theorem State.clearPending_rngRequests : s.clearPending.rngRequests = s.rngRequests := rfl
@[simp] theorem State.clearPending_draws : s.clearPending.draws = s.draws := rfl

@[simp] theorem State.rngUsed_build : s.rngUsed.build = s.build := rfl
@[simp] theorem State.rngUsed_phase : s.rngUsed.phase = s.phase := rfl
@[simp] theorem State.rngUsed_err : s.rngUsed.err = s.err := rfl
@[simp] theorem State.rngUsed_fatal : s.rngUsed.fatal = s.fatal := rfl
@[simp] theorem State.rngUsed_errinfo : s.rngUsed.errinfo = s.errinfo := rfl
@[simp] theorem State.rngUsed_inlen : s.rngUsed.inlen = s.inlen := rfl
@[simp] theorem State.rngUsed_inbuf : s.rngUsed.inbuf = s.inbuf := rfl
@[simp] theorem State.rngUsed_ebuf : s.rngUsed.ebuf = s.ebuf := rfl
@[simp] theorem State.rngUsed_csum : s.rngUsed.csum = s.csum := rfl
@[simp] theorem State.rngUsed_idx : s.rngUsed.idx = s.idx := rfl
@[simp] theorem State.rngUsed_wsel : s.rngUsed.wsel = s.wsel := rfl
@[simp] theorem State.rngUsed_pending : s.rngUsed.pending = s.pending := rfl
@[simp] theorem State.rngUsed_schedule : s.rngUsed.schedule = s.schedule := rfl
@[simp] theorem State.rngUsed_readLog : s.rngUsed.readLog = s.readLog := rfl
@[simp] theorem State.rngUsed_rngReady : s.rngUsed.rngReady = s.rngReady.tail := rfl
@[simp] theorem State.rngUsed_rngRequests : s.rngUsed.rngRequests = s.rngRequests + 1 := rfl
@[simp] theorem State.rngUsed_draws : s.rngUsed.draws = s.draws := rfl

@[simp] theorem State.drawn_build : s.drawn.build = s.build := rfl
@[simp] theorem State.drawn_phase : s.drawn.phase = s.phase := rfl
@[simp] theorem State.drawn_err : s.drawn.err = s.err := rfl
@[simp] theorem State.drawn_fatal : s.drawn.fatal = s.fatal := rfl
@[simp] theorem State.drawn_errinfo : s.drawn.errinfo = s.errinfo := rfl
@[simp] theorem State.drawn_inlen : s.drawn.inlen = s.inlen := rfl
@[simp] theorem State.drawn_inbuf : s.drawn.inbuf = s.inbuf := rfl
@[simp] theorem State.drawn_ebuf : s.drawn.ebuf = s.ebuf := rfl
@[simp] theorem State.drawn_csum : s.drawn.csum = s.csum := rfl
@[simp] theorem State.drawn_idx : s.drawn.idx = s.idx := rfl
@[simp] theorem State.drawn_wsel : s.drawn.wsel = s.wsel := rfl
@[simp] theorem State.drawn_pending : s.drawn.pending = s.pending := rfl
@[simp] theorem State.drawn_schedule : s.drawn.schedule = s.schedule := rfl
@[simp] theorem State.drawn_readLog : s.drawn.readLog = s.readLog := rfl
@[simp] theorem State.drawn_rngReady : s.drawn.rngReady = s.rngReady := rfl
@[simp] theorem State.drawn_rngRequests : s.drawn.rngRequests = s.rngRequests := rfl
@[simp] theorem State.drawn_draws : s.drawn.draws = s.draws + 1 := rfl

@[simp] theorem State.setInlen_build (v : Word) : (s.setInlen v).build = s.build := rfl
@[simp] theorem State.setInlen_phase (v : Word) : (s.setInlen v).phase = s.phase := rfl
@[simp] theorem State.setInlen_err (v : Word) : (s.setInlen v).err = s.err := rfl
@[simp] theorem State.setInlen_fatal (v : Word) : (s.setInlen v).fatal = s.fatal := rfl
@[simp] theorem State.setInlen_errinfo (v : Word) : (s.setInlen v).errinfo = s.errinfo := rfl
@[simp] theorem State.setInlen_inlen (v : Word) : (s.setInlen v).inlen = v.extractLsb 8 0 := rfl
@[simp] theorem State.setInlen_inbuf (v : Word) : (s.setInlen v).inbuf = s.inbuf := rfl
@[simp] theorem State.setInlen_ebuf (v : Word) : (s.setInlen v).ebuf = s.ebuf := rfl
@[simp] theorem State.setInlen_csum (v : Word) : (s.setInlen v).csum = s.csum := rfl
@[simp] theorem State.setInlen_idx (v : Word) : (s.setInlen v).idx = s.idx := rfl
@[simp] theorem State.setInlen_wsel (v : Word) : (s.setInlen v).wsel = s.wsel := rfl
@[simp] theorem State.setInlen_pending (v : Word) : (s.setInlen v).pending = s.pending := rfl
@[simp] theorem State.setInlen_schedule (v : Word) : (s.setInlen v).schedule = s.schedule := rfl
@[simp] theorem State.setInlen_readLog (v : Word) : (s.setInlen v).readLog = s.readLog := rfl
@[simp] theorem State.setInlen_rngReady (v : Word) : (s.setInlen v).rngReady = s.rngReady := rfl
@[simp] theorem State.setInlen_rngRequests (v : Word) : (s.setInlen v).rngRequests = s.rngRequests := rfl
@[simp] theorem State.setInlen_draws (v : Word) : (s.setInlen v).draws = s.draws := rfl

@[simp] theorem State.setWsel_build (v : Word) : (s.setWsel v).build = s.build := rfl
@[simp] theorem State.setWsel_phase (v : Word) : (s.setWsel v).phase = s.phase := rfl
@[simp] theorem State.setWsel_err (v : Word) : (s.setWsel v).err = s.err := rfl
@[simp] theorem State.setWsel_fatal (v : Word) : (s.setWsel v).fatal = s.fatal := rfl
@[simp] theorem State.setWsel_errinfo (v : Word) : (s.setWsel v).errinfo = s.errinfo := rfl
@[simp] theorem State.setWsel_inlen (v : Word) : (s.setWsel v).inlen = s.inlen := rfl
@[simp] theorem State.setWsel_inbuf (v : Word) : (s.setWsel v).inbuf = s.inbuf := rfl
@[simp] theorem State.setWsel_ebuf (v : Word) : (s.setWsel v).ebuf = s.ebuf := rfl
@[simp] theorem State.setWsel_csum (v : Word) : (s.setWsel v).csum = s.csum := rfl
@[simp] theorem State.setWsel_idx (v : Word) : (s.setWsel v).idx = s.idx := rfl
@[simp] theorem State.setWsel_wsel (v : Word) : (s.setWsel v).wsel = v.extractLsb 4 0 := rfl
@[simp] theorem State.setWsel_pending (v : Word) : (s.setWsel v).pending = s.pending := rfl
@[simp] theorem State.setWsel_schedule (v : Word) : (s.setWsel v).schedule = s.schedule := rfl
@[simp] theorem State.setWsel_readLog (v : Word) : (s.setWsel v).readLog = s.readLog := rfl
@[simp] theorem State.setWsel_rngReady (v : Word) : (s.setWsel v).rngReady = s.rngReady := rfl
@[simp] theorem State.setWsel_rngRequests (v : Word) : (s.setWsel v).rngRequests = s.rngRequests := rfl
@[simp] theorem State.setWsel_draws (v : Word) : (s.setWsel v).draws = s.draws := rfl

@[simp] theorem State.storeInput_build (k n : Nat) (v : Word) : (s.storeInput k n v).build = s.build := rfl
@[simp] theorem State.storeInput_phase (k n : Nat) (v : Word) : (s.storeInput k n v).phase = s.phase := rfl
@[simp] theorem State.storeInput_err (k n : Nat) (v : Word) : (s.storeInput k n v).err = s.err := rfl
@[simp] theorem State.storeInput_fatal (k n : Nat) (v : Word) : (s.storeInput k n v).fatal = s.fatal := rfl
@[simp] theorem State.storeInput_errinfo (k n : Nat) (v : Word) : (s.storeInput k n v).errinfo = s.errinfo := rfl
@[simp] theorem State.storeInput_inlen (k n : Nat) (v : Word) : (s.storeInput k n v).inlen = s.inlen := rfl
@[simp] theorem State.storeInput_inbuf (k n : Nat) (v : Word) : (s.storeInput k n v).inbuf = Memory.store s.inbuf k n v := rfl
@[simp] theorem State.storeInput_ebuf (k n : Nat) (v : Word) : (s.storeInput k n v).ebuf = s.ebuf := rfl
@[simp] theorem State.storeInput_csum (k n : Nat) (v : Word) : (s.storeInput k n v).csum = s.csum := rfl
@[simp] theorem State.storeInput_idx (k n : Nat) (v : Word) : (s.storeInput k n v).idx = s.idx := rfl
@[simp] theorem State.storeInput_wsel (k n : Nat) (v : Word) : (s.storeInput k n v).wsel = s.wsel := rfl
@[simp] theorem State.storeInput_pending (k n : Nat) (v : Word) : (s.storeInput k n v).pending = s.pending := rfl
@[simp] theorem State.storeInput_schedule (k n : Nat) (v : Word) : (s.storeInput k n v).schedule = s.schedule := rfl
@[simp] theorem State.storeInput_readLog (k n : Nat) (v : Word) : (s.storeInput k n v).readLog = s.readLog := rfl
@[simp] theorem State.storeInput_rngReady (k n : Nat) (v : Word) : (s.storeInput k n v).rngReady = s.rngReady := rfl
@[simp] theorem State.storeInput_rngRequests (k n : Nat) (v : Word) : (s.storeInput k n v).rngRequests = s.rngRequests := rfl
@[simp] theorem State.storeInput_draws (k n : Nat) (v : Word) : (s.storeInput k n v).draws = s.draws := rfl

@[simp] theorem State.issue_build (c : Word) : (s.issue c).build = s.build := rfl
@[simp] theorem State.issue_phase (c : Word) : (s.issue c).phase = s.phase := rfl
@[simp] theorem State.issue_err (c : Word) : (s.issue c).err = s.err := rfl
@[simp] theorem State.issue_fatal (c : Word) : (s.issue c).fatal = s.fatal := rfl
@[simp] theorem State.issue_errinfo (c : Word) : (s.issue c).errinfo = s.errinfo := rfl
@[simp] theorem State.issue_inlen (c : Word) : (s.issue c).inlen = s.inlen := rfl
@[simp] theorem State.issue_inbuf (c : Word) : (s.issue c).inbuf = s.inbuf := rfl
@[simp] theorem State.issue_ebuf (c : Word) : (s.issue c).ebuf = s.ebuf := rfl
@[simp] theorem State.issue_csum (c : Word) : (s.issue c).csum = s.csum := rfl
@[simp] theorem State.issue_idx (c : Word) : (s.issue c).idx = s.idx := rfl
@[simp] theorem State.issue_wsel (c : Word) : (s.issue c).wsel = s.wsel := rfl
@[simp] theorem State.issue_pending (c : Word) : (s.issue c).pending = some c := rfl
@[simp] theorem State.issue_schedule (c : Word) : (s.issue c).schedule = s.schedule := rfl
@[simp] theorem State.issue_readLog (c : Word) : (s.issue c).readLog = s.readLog := rfl
@[simp] theorem State.issue_rngReady (c : Word) : (s.issue c).rngReady = s.rngReady := rfl
@[simp] theorem State.issue_rngRequests (c : Word) : (s.issue c).rngRequests = s.rngRequests := rfl
@[simp] theorem State.issue_draws (c : Word) : (s.issue c).draws = s.draws := rfl

@[simp] theorem State.logRead_build (v : Word) : (s.logRead v).build = s.build := rfl
@[simp] theorem State.logRead_phase (v : Word) : (s.logRead v).phase = s.phase := rfl
@[simp] theorem State.logRead_err (v : Word) : (s.logRead v).err = s.err := rfl
@[simp] theorem State.logRead_fatal (v : Word) : (s.logRead v).fatal = s.fatal := rfl
@[simp] theorem State.logRead_errinfo (v : Word) : (s.logRead v).errinfo = s.errinfo := rfl
@[simp] theorem State.logRead_inlen (v : Word) : (s.logRead v).inlen = s.inlen := rfl
@[simp] theorem State.logRead_inbuf (v : Word) : (s.logRead v).inbuf = s.inbuf := rfl
@[simp] theorem State.logRead_ebuf (v : Word) : (s.logRead v).ebuf = s.ebuf := rfl
@[simp] theorem State.logRead_csum (v : Word) : (s.logRead v).csum = s.csum := rfl
@[simp] theorem State.logRead_idx (v : Word) : (s.logRead v).idx = s.idx := rfl
@[simp] theorem State.logRead_wsel (v : Word) : (s.logRead v).wsel = s.wsel := rfl
@[simp] theorem State.logRead_pending (v : Word) : (s.logRead v).pending = s.pending := rfl
@[simp] theorem State.logRead_schedule (v : Word) : (s.logRead v).schedule = s.schedule := rfl
@[simp] theorem State.logRead_readLog (v : Word) : (s.logRead v).readLog = v :: s.readLog := rfl
@[simp] theorem State.logRead_rngReady (v : Word) : (s.logRead v).rngReady = s.rngReady := rfl
@[simp] theorem State.logRead_rngRequests (v : Word) : (s.logRead v).rngRequests = s.rngRequests := rfl
@[simp] theorem State.logRead_draws (v : Word) : (s.logRead v).draws = s.draws := rfl

@[simp] theorem State.withSchedule_build (es : List Event) : (s.withSchedule es).build = s.build := rfl
@[simp] theorem State.withSchedule_phase (es : List Event) : (s.withSchedule es).phase = s.phase := rfl
@[simp] theorem State.withSchedule_err (es : List Event) : (s.withSchedule es).err = s.err := rfl
@[simp] theorem State.withSchedule_fatal (es : List Event) : (s.withSchedule es).fatal = s.fatal := rfl
@[simp] theorem State.withSchedule_errinfo (es : List Event) : (s.withSchedule es).errinfo = s.errinfo := rfl
@[simp] theorem State.withSchedule_inlen (es : List Event) : (s.withSchedule es).inlen = s.inlen := rfl
@[simp] theorem State.withSchedule_inbuf (es : List Event) : (s.withSchedule es).inbuf = s.inbuf := rfl
@[simp] theorem State.withSchedule_ebuf (es : List Event) : (s.withSchedule es).ebuf = s.ebuf := rfl
@[simp] theorem State.withSchedule_csum (es : List Event) : (s.withSchedule es).csum = s.csum := rfl
@[simp] theorem State.withSchedule_idx (es : List Event) : (s.withSchedule es).idx = s.idx := rfl
@[simp] theorem State.withSchedule_wsel (es : List Event) : (s.withSchedule es).wsel = s.wsel := rfl
@[simp] theorem State.withSchedule_pending (es : List Event) : (s.withSchedule es).pending = s.pending := rfl
@[simp] theorem State.withSchedule_schedule (es : List Event) : (s.withSchedule es).schedule = es := rfl
@[simp] theorem State.withSchedule_readLog (es : List Event) : (s.withSchedule es).readLog = s.readLog := rfl
@[simp] theorem State.withSchedule_rngReady (es : List Event) : (s.withSchedule es).rngReady = s.rngReady := rfl
@[simp] theorem State.withSchedule_rngRequests (es : List Event) : (s.withSchedule es).rngRequests = s.rngRequests := rfl
@[simp] theorem State.withSchedule_draws (es : List Event) : (s.withSchedule es).draws = s.draws := rfl

@[simp] theorem State.resetFrom_build : s.resetFrom.build = s.build := rfl
@[simp] theorem State.resetFrom_phase : s.resetFrom.phase = .idle := rfl
@[simp] theorem State.resetFrom_err : s.resetFrom.err = .ok := rfl
@[simp] theorem State.resetFrom_fatal : s.resetFrom.fatal = false := rfl
@[simp] theorem State.resetFrom_errinfo : s.resetFrom.errinfo = 0 := rfl
@[simp] theorem State.resetFrom_inlen : s.resetFrom.inlen = 0 := rfl
@[simp] theorem State.resetFrom_inbuf : s.resetFrom.inbuf = [] := rfl
@[simp] theorem State.resetFrom_ebuf : s.resetFrom.ebuf = zeroEntropy s.build := rfl
@[simp] theorem State.resetFrom_csum : s.resetFrom.csum = 0 := rfl
@[simp] theorem State.resetFrom_idx : s.resetFrom.idx = zeroIdx := rfl
@[simp] theorem State.resetFrom_wsel : s.resetFrom.wsel = 0 := rfl
@[simp] theorem State.resetFrom_pending : s.resetFrom.pending = none := rfl
@[simp] theorem State.resetFrom_schedule : s.resetFrom.schedule = s.schedule := rfl
@[simp] theorem State.resetFrom_readLog : s.resetFrom.readLog = s.readLog := rfl
@[simp] theorem State.resetFrom_rngReady : s.resetFrom.rngReady = s.rngReady := rfl
@[simp] theorem State.resetFrom_rngRequests : s.resetFrom.rngRequests = s.rngRequests := rfl
@[simp] theorem State.resetFrom_draws : s.resetFrom.draws = s.draws := rfl

@[simp] theorem State.selfChecked_build : s.selfChecked.build = s.build := by unfold State.selfChecked; split <;> rfl
@[simp] theorem State.selfChecked_phase : s.selfChecked.phase = s.phase := by unfold State.selfChecked; split <;> rfl
@[simp] theorem State.selfChecked_err : s.selfChecked.err = s.err := by unfold State.selfChecked; split <;> rfl
@[simp] theorem State.selfChecked_fatal : s.selfChecked.fatal = s.fatal := by unfold State.selfChecked; split <;> rfl
@[simp] theorem State.selfChecked_errinfo : s.selfChecked.errinfo = s.errinfo := by unfold State.selfChecked; split <;> rfl
@[simp] theorem State.selfChecked_inlen : s.selfChecked.inlen = s.inlen := by unfold State.selfChecked; split <;> rfl
@[simp] theorem State.selfChecked_inbuf : s.selfChecked.inbuf = s.inbuf := by unfold State.selfChecked; split <;> rfl
@[simp] theorem State.selfChecked_ebuf : s.selfChecked.ebuf = s.ebuf := by unfold State.selfChecked; split <;> rfl
@[simp] theorem State.selfChecked_csum : s.selfChecked.csum = s.csum := by unfold State.selfChecked; split <;> rfl
@[simp] theorem State.selfChecked_idx : s.selfChecked.idx = s.idx := by unfold State.selfChecked; split <;> rfl
@[simp] theorem State.selfChecked_wsel : s.selfChecked.wsel = s.wsel := by unfold State.selfChecked; split <;> rfl
@[simp] theorem State.selfChecked_pending : s.selfChecked.pending = s.pending := by unfold State.selfChecked; split <;> rfl
@[simp] theorem State.selfChecked_schedule : s.selfChecked.schedule = s.schedule := by unfold State.selfChecked; split <;> rfl
@[simp] theorem State.selfChecked_readLog : s.selfChecked.readLog = s.readLog := by unfold State.selfChecked; split <;> rfl
@[simp] theorem State.selfChecked_rngReady : s.selfChecked.rngReady = s.rngReady := by unfold State.selfChecked; split <;> rfl
@[simp] theorem State.selfChecked_rngRequests : s.selfChecked.rngRequests = s.rngRequests := by unfold State.selfChecked; split <;> rfl

@[simp] theorem State.statusDrawn_build (r : Reg) : (s.statusDrawn r).build = s.build := by unfold State.statusDrawn; split <;> rfl
@[simp] theorem State.statusDrawn_phase (r : Reg) : (s.statusDrawn r).phase = s.phase := by unfold State.statusDrawn; split <;> rfl
@[simp] theorem State.statusDrawn_err (r : Reg) : (s.statusDrawn r).err = s.err := by unfold State.statusDrawn; split <;> rfl
@[simp] theorem State.statusDrawn_fatal (r : Reg) : (s.statusDrawn r).fatal = s.fatal := by unfold State.statusDrawn; split <;> rfl
@[simp] theorem State.statusDrawn_errinfo (r : Reg) : (s.statusDrawn r).errinfo = s.errinfo := by unfold State.statusDrawn; split <;> rfl
@[simp] theorem State.statusDrawn_inlen (r : Reg) : (s.statusDrawn r).inlen = s.inlen := by unfold State.statusDrawn; split <;> rfl
@[simp] theorem State.statusDrawn_inbuf (r : Reg) : (s.statusDrawn r).inbuf = s.inbuf := by unfold State.statusDrawn; split <;> rfl
@[simp] theorem State.statusDrawn_ebuf (r : Reg) : (s.statusDrawn r).ebuf = s.ebuf := by unfold State.statusDrawn; split <;> rfl
@[simp] theorem State.statusDrawn_csum (r : Reg) : (s.statusDrawn r).csum = s.csum := by unfold State.statusDrawn; split <;> rfl
@[simp] theorem State.statusDrawn_idx (r : Reg) : (s.statusDrawn r).idx = s.idx := by unfold State.statusDrawn; split <;> rfl
@[simp] theorem State.statusDrawn_wsel (r : Reg) : (s.statusDrawn r).wsel = s.wsel := by unfold State.statusDrawn; split <;> rfl
@[simp] theorem State.statusDrawn_pending (r : Reg) : (s.statusDrawn r).pending = s.pending := by unfold State.statusDrawn; split <;> rfl
@[simp] theorem State.statusDrawn_schedule (r : Reg) : (s.statusDrawn r).schedule = s.schedule := by unfold State.statusDrawn; split <;> rfl
@[simp] theorem State.statusDrawn_readLog (r : Reg) : (s.statusDrawn r).readLog = s.readLog := by unfold State.statusDrawn; split <;> rfl
@[simp] theorem State.statusDrawn_rngReady (r : Reg) : (s.statusDrawn r).rngReady = s.rngReady := by unfold State.statusDrawn; split <;> rfl
@[simp] theorem State.statusDrawn_rngRequests (r : Reg) : (s.statusDrawn r).rngRequests = s.rngRequests := by unfold State.statusDrawn; split <;> rfl

@[simp] theorem State.unlessFatal_live (t : State) (h : s.fatal = false) : s.unlessFatal t = t := by
  simp [State.unlessFatal, h]

@[simp] theorem State.unlessFatal_fatal (t : State) (h : s.fatal = true) : s.unlessFatal t = s := by
  simp [State.unlessFatal, h]

end Sys2Proof.Machine
end

