-- ==== Sys2Proof/Laws/Exec.lean ====
section
/-! SUPPORT. What a command can do, said once: the spec of Validate, of the RNG port, and the inversion of `exec`. -/

namespace Sys2Proof.Machine

/-! ### Validate -/

theorem firstIllegal_eq_none {s : State} {req : Nat} {legal : Byte → Bool} :
    firstIllegal s req legal = none ↔ ∀ k < req, legal (s.inbufByte k) = true := by
  simp [firstIllegal]

theorem firstIllegal_eq_some {s : State} {req k : Nat} {legal : Byte → Bool} :
    firstIllegal s req legal = some k ↔
      k < req ∧ legal (s.inbufByte k) = false ∧ ∀ j < k, legal (s.inbufByte j) = true := by
  rw [firstIllegal, List.find?_range_eq_some]
  simp only [Bool.not_eq_true', Bool.not_not, List.mem_range]
  tauto

theorem validate_length {s : State} {req : Nat} {legal : Byte → Bool} (h : s.inlen.toNat ≠ req) :
    validate s req legal = some (.length, req) := by simp [validate, h]

theorem validate_none {s : State} {req : Nat} {legal : Byte → Bool} :
    validate s req legal = none ↔ s.inlen.toNat = req ∧ ∀ k < req, legal (s.inbufByte k) = true := by
  unfold validate
  split
  next h => simp [h]
  next h => simp only [Option.map_eq_none_iff, firstIllegal_eq_none]; tauto

theorem validate_some {s : State} {req : Nat} {legal : Byte → Bool} {c : ErrCode} {n : Nat} :
    validate s req legal = some (c, n) ↔
      (s.inlen.toNat ≠ req ∧ c = .length ∧ n = req) ∨
      (s.inlen.toNat = req ∧ c = .alphabet ∧ n < req ∧ legal (s.inbufByte n) = false ∧
        ∀ j < n, legal (s.inbufByte j) = true) := by
  unfold validate
  split
  next h =>
    simp only [Option.some.injEq, Prod.mk.injEq, h, ne_eq, not_false_eq_true, true_and, false_and, or_false]
    exact ⟨fun ⟨a, b⟩ => ⟨a.symm, b.symm⟩, fun ⟨a, b⟩ => ⟨a.symm, b.symm⟩⟩
  next h =>
    simp only [ne_eq, not_not] at h
    simp only [Option.map_eq_some_iff, Prod.mk.injEq, firstIllegal_eq_some, h, ne_eq, not_true_eq_false, false_and,
      true_and, false_or]
    constructor
    · rintro ⟨k, hk, rfl, rfl⟩; exact ⟨rfl, hk⟩
    · rintro ⟨rfl, hk⟩; exact ⟨n, hk, rfl, rfl⟩

/-! ### The RNG port -/

@[simp] theorem length_rngBytes (r n : Nat) (l : List Byte) : (rngBytes r n l).length = n := by simp [rngBytes]

/-- An answer whose bytes are all known is those bytes. -/
theorem rngBytes_known (r : Nat) (l : List Byte) : rngBytes r l.length l = l := by
  apply List.ext_getElem (by simp)
  intro k h1 h2
  simp [rngBytes, h2]

theorem length_of_rngAnswer {s : State} {b : List Byte} (h : s.rngAnswer = some b) :
    b.length = entBytes s.build.w := by
  unfold State.rngAnswer at h
  split at h
  · simp at h
  · simp only [Option.some.injEq] at h; simp [← h]
  · split at h
    · simp at h
    · simp only [Option.some.injEq] at h; simp [← h]

/-! ### Commands -/

theorem exec_openSession {s : State} (hf : s.fatal = false) :
    exec .openSession s =
      .next (if s.phase = .idle ∨ s.phase = .done then s.clearInput.succeed .collecting else s.phaseError) := by
  simp only [exec, execOpen, State.unlessFatal_live, hf]

theorem exec_abort {s : State} (hf : s.fatal = false) :
    exec .abort s = .next (s.clearInput.clearPhrase.succeed .idle) := by
  simp only [exec, execAbort, State.unlessFatal_live, hf]

theorem exec_finish {s : State} (hf : s.fatal = false) :
    exec .finish s = .next (if s.phase = .derived then s.clearPhrase.succeed .done else s.phaseError) := by
  simp only [exec, execFinish, State.unlessFatal_live, hf]

theorem exec_derive {s : State} (hf : s.fatal = false) :
    exec .derive s = .next (if s.phase ≠ .csumAppended then s.phaseError
      else ({ s with idx := deriveIdx s.build s.ebuf s.csum s.idx } : State).succeed .derived) := by
  simp only [exec, execDerive, State.unlessFatal_live, hf]

theorem exec_acqRaw {s : State} (hf : s.fatal = false) :
    exec .acqRaw s = .next (s.acquireInput (entBytes s.build.w) legalRaw
      (bitsOf ((List.range (entBytes s.build.w)).map s.inbufByte))) := by
  simp only [exec, execAcqRaw, State.unlessFatal_live, hf]

theorem exec_acqCoin {s : State} (hf : s.fatal = false) :
    exec .acqCoin s = .next (s.acquireInput (entBits s.build.w) legalCoin
      (coinEncode (entBits s.build.w) s.inbufByte)) := by
  simp only [exec, execAcqCoin, State.unlessFatal_live, hf]

theorem exec_acqDice {s : State} (hf : s.fatal = false) (hd : s.build.dicePresent = true) :
    exec .acqDice s = .next (s.acquireInput (rolls s.build.w) legalDice
      (diceEncode (wordCount s.build.w) (fun k => rollValue (s.inbufByte k)))) := by
  simp only [exec, execAcqDice, State.unlessFatal_live, hf, hd, Bool.not_true, Bool.false_eq_true, if_false]

theorem exec_acqDice_absent {s : State} (hf : s.fatal = false) (hd : s.build.dicePresent = false) :
    exec .acqDice s = .next (s.raiseErr .illegalCmd 0x0013) := by
  simp only [exec, execAcqDice, State.unlessFatal_live, hf, hd, Bool.not_false, if_true]

theorem exec_acqRng_wrongPhase {s : State} (hf : s.fatal = false) (hp : s.phase ≠ .collecting) :
    exec .acqRng s = .next s.phaseError := by
  simp only [exec, execAcqRng, State.unlessFatal_live, hf, if_pos hp]

theorem exec_acqRng_exhausted {s : State} (hf : s.fatal = false) (hp : s.phase = .collecting)
    (ha : s.rngAnswer = none) : exec .acqRng s = .next (s.rngUsed.fatalEntry .fatalRng) := by
  simp only [exec, execAcqRng, State.unlessFatal_live, hf, hp, ne_eq, not_true_eq_false, if_false, ha]

theorem exec_acqRng_bytes {s : State} {b : List Byte} (hf : s.fatal = false) (hp : s.phase = .collecting)
    (ha : s.rngAnswer = some b) : exec .acqRng s = .next (s.rngUsed.commit (bitsOf b)) := by
  simp only [exec, execAcqRng, State.unlessFatal_live, hf, hp, ne_eq, not_true_eq_false, if_false, ha]

theorem exec_of_fatal {s : State} (i : Instr) (hf : s.fatal = true) : exec i s = .next s := by
  cases i <;> simp only [exec, execOpen, execAbort, execAcqRng, execAcqRaw, execAcqCoin, execAcqDice, execDerive,
    execFinish, State.unlessFatal_fatal, hf]

theorem acquireInput_wrongPhase {s : State} {req : Nat} {legal : Byte → Bool} {e : List Bool}
    (hp : s.phase ≠ .collecting) : s.acquireInput req legal e = s.phaseError := if_pos hp

theorem acquireInput_bad {s : State} {req n : Nat} {legal : Byte → Bool} {e : List Bool} {c : ErrCode}
    (hp : s.phase = .collecting) (hv : validate s req legal = some (c, n)) :
    s.acquireInput req legal e = s.raiseErr c n := by simp only [State.acquireInput, hp, ne_eq, not_true_eq_false, if_false, hv]

theorem acquireInput_good {s : State} {req : Nat} {legal : Byte → Bool} {e : List Bool}
    (hp : s.phase = .collecting) (hv : validate s req legal = none) :
    s.acquireInput req legal e = s.commit e := by simp only [State.acquireInput, hp, ne_eq, not_true_eq_false, if_false, hv]

/-- The input a host-input command takes: required length, alphabet, encoded entropy (40_acquisition.md R110). -/
inductive InputOf (s : State) : Instr → Nat → (Byte → Bool) → List Bool → Prop where
  | raw : InputOf s .acqRaw (entBytes s.build.w) legalRaw (bitsOf ((List.range (entBytes s.build.w)).map s.inbufByte))
  | coin : InputOf s .acqCoin (entBits s.build.w) legalCoin (coinEncode (entBits s.build.w) s.inbufByte)
  | dice : s.build.dicePresent = true → InputOf s .acqDice (rolls s.build.w) legalDice
      (diceEncode (wordCount s.build.w) (fun k => rollValue (s.inbufByte k)))

theorem legalCoin_iff (c : Byte) : legalCoin c = true ↔ c ∈ [0x48, 0x68, 0x54, 0x74] := by
  simp [legalCoin, or_assoc]

theorem legalDice_iff (c : Byte) : legalDice c = true ↔ c ∈ [0x31, 0x32, 0x33, 0x34, 0x35, 0x36] := by
  revert c; decide +kernel

/-- A host-input command's input is valid exactly where Validate raises nothing. -/
theorem InputOf.valid_iff {s : State} {i : Instr} {req : Nat} {legal : Byte → Bool} {e : List Bool}
    (h : InputOf s i req legal e) : s.inputValid i ↔ validate s req legal = none := by
  rw [validate_none]
  cases h with
  | raw => simp [State.inputValid, legalRaw]
  | coin => simp only [State.inputValid, legalCoin_iff]
  | dice => simp only [State.inputValid, legalDice_iff]

/-- The phases in which a command may act (45_session.md R210). -/
def actsIn : Instr → Phase → Bool
  | .openSession, p => decide (p = .idle ∨ p = .done)
  | .abort, _ => true
  | .acqRng, p | .acqRaw, p | .acqCoin, p | .acqDice, p => decide (p = .collecting)
  | .derive, p => decide (p = .csumAppended)
  | .finish, p => decide (p = .derived)

/-- Everything a command can do to a state. -/
inductive CommandDoes (s : State) : Instr → State → Prop where
  | dropped (i) : s.fatal = true → CommandDoes s i s
  | noDice : s.fatal = false → s.build.dicePresent = false → CommandDoes s .acqDice (s.raiseErr .illegalCmd 0x0013)
  | wrongPhase (i) : s.fatal = false → i.wf s.build = true → actsIn i s.phase = false → CommandDoes s i s.phaseError
  | badInput (i req legal e c n) : s.fatal = false → s.phase = .collecting → InputOf s i req legal e →
      validate s req legal = some (c, n) → CommandDoes s i (s.raiseErr c n)
  | goodInput (i req legal e) : s.fatal = false → s.phase = .collecting → InputOf s i req legal e →
      validate s req legal = none → CommandDoes s i (s.commit e)
  | exhausted : s.fatal = false → s.phase = .collecting → s.rngAnswer = none →
      CommandDoes s .acqRng (s.rngUsed.fatalEntry .fatalRng)
  | random (b) : s.fatal = false → s.phase = .collecting → s.rngAnswer = some b →
      CommandDoes s .acqRng (s.rngUsed.commit (bitsOf b))
  | opened : s.fatal = false → s.phase = .idle ∨ s.phase = .done →
      CommandDoes s .openSession (s.clearInput.succeed .collecting)
  | aborted : s.fatal = false → CommandDoes s .abort (s.clearInput.clearPhrase.succeed .idle)
  | sliced : s.fatal = false → s.phase = .csumAppended → CommandDoes s .derive
      (({ s with idx := deriveIdx s.build s.ebuf s.csum s.idx } : State).succeed .derived)
  | finished : s.fatal = false → s.phase = .derived → CommandDoes s .finish (s.clearPhrase.succeed .done)

theorem acquireInput_does {s : State} {i : Instr} {req : Nat} {legal : Byte → Bool} {e : List Bool}
    (hf : s.fatal = false) (hw : i.wf s.build = true) (hi : InputOf s i req legal e)
    (ha : ∀ p, actsIn i p = decide (p = .collecting)) : CommandDoes s i (s.acquireInput req legal e) := by
  unfold State.acquireInput
  split
  next hp => exact .wrongPhase i hf hw (by simpa [ha] using hp)
  next hp =>
    simp only [ne_eq, not_not] at hp
    split
    next c n hv => exact .badInput i req legal e c n hf hp hi hv
    next hv => exact .goodInput i req legal e hf hp hi hv

/-- Every command completes, and does one of the things listed. -/
theorem exec_does (i : Instr) (s : State) : ∃ t, exec i s = .next t ∧ CommandDoes s i t := by
  by_cases hfat : s.fatal = true
  · exact ⟨s, exec_of_fatal i hfat, .dropped i hfat⟩
  have hf : s.fatal = false := by simpa using hfat
  cases i with
  | openSession =>
    refine ⟨_, exec_openSession hf, ?_⟩
    split
    next h => exact .opened hf h
    next h => exact .wrongPhase _ hf rfl (by simpa [actsIn] using h)
  | abort => exact ⟨_, exec_abort hf, .aborted hf⟩
  | acqRng =>
    by_cases hp : s.phase = .collecting
    · cases ha : s.rngAnswer with
      | none => exact ⟨_, exec_acqRng_exhausted hf hp ha, .exhausted hf hp ha⟩
      | some b => exact ⟨_, exec_acqRng_bytes hf hp ha, .random b hf hp ha⟩
    · exact ⟨_, exec_acqRng_wrongPhase hf hp, .wrongPhase _ hf rfl (by simpa [actsIn] using hp)⟩
  | acqRaw => exact ⟨_, exec_acqRaw hf, acquireInput_does hf rfl .raw fun _ => rfl⟩
  | acqCoin => exact ⟨_, exec_acqCoin hf, acquireInput_does hf rfl .coin fun _ => rfl⟩
  | acqDice =>
    by_cases hd : s.build.dicePresent = true
    · exact ⟨_, exec_acqDice hf hd, acquireInput_does hf hd (.dice hd) fun _ => rfl⟩
    · have hd' : s.build.dicePresent = false := by simpa using hd
      exact ⟨_, exec_acqDice_absent hf hd', .noDice hf hd'⟩
  | derive =>
    refine ⟨_, exec_derive hf, ?_⟩
    split
    next h => exact .wrongPhase _ hf rfl (by simpa [actsIn] using h)
    next h => exact .sliced hf (by simpa using h)
  | finish =>
    refine ⟨_, exec_finish hf, ?_⟩
    split
    next h => exact .finished hf h
    next h => exact .wrongPhase _ hf rfl (by simpa [actsIn] using h)

/-- The inversion of `exec`. -/
theorem exec_cases {i : Instr} {s t : State} (h : exec i s = .next t) : CommandDoes s i t := by
  obtain ⟨u, hu, hd⟩ := exec_does i s
  rw [hu] at h
  cases h
  exact hd

/-- The encoded input of every host-input command has ENT_BITS bits (60_exceptions.md R247). -/
theorem length_of_inputOf {s : State} {i : Instr} {req : Nat} {legal : Byte → Bool} {e : List Bool}
    (h : InputOf s i req legal e) : e.length = entBits s.build.w := by
  cases h with
  | raw => simp [entBits_eq_bytes]
  | coin => simp
  | dice hd => exact length_diceEncode_entBits hd _

/-- The required lengths (40_acquisition.md R110). -/
theorem req_of_inputOf {s : State} {i : Instr} {req : Nat} {legal : Byte → Bool} {e : List Bool}
    (h : InputOf s i req legal e) : req ∈ [entBytes s.build.w, entBits s.build.w, rolls s.build.w] := by
  cases h <;> simp

theorem req_le_of_inputOf {s : State} {i : Instr} {req : Nat} {legal : Byte → Bool} {e : List Bool}
    (h : InputOf s i req legal e) : req ≤ 256 := by
  cases h with
  | raw => cases s.build.w <;> decide
  | coin => exact entBits_le _
  | dice _ => cases s.build.w <;> decide

/-- What no command changes. -/
theorem CommandDoes.frame {s t : State} {i : Instr} (h : CommandDoes s i t) :
    t.build = s.build ∧ t.pending = s.pending ∧ t.schedule = s.schedule ∧ t.readLog = s.readLog ∧ t.draws = s.draws := by
  cases h <;> exact ⟨rfl, rfl, rfl, rfl, rfl⟩

end Sys2Proof.Machine
end

