-- ==== Sys2Proof/Laws/Step.lean ====
section
/-! SUPPORT. What one step can do, said once: the inversion of `step` over the scheduled event. -/

namespace Sys2Proof.Machine

/-! ### Completion -/

/-- Everything a completion can do. -/
inductive CompletionDoes (s : State) : State → Prop where
  | idle : s.pending = none → CompletionDoes s s
  | droppedFatal (c) : s.pending = some c → s.fatal = true → CompletionDoes s s.clearPending
  | selfCheck (c) : s.pending = some c → s.fatal = false → s.spuriousFatal = true →
      CompletionDoes s (s.selfChecked.fatalEntry .fatalInv).clearPending
  | illegal (c w) : s.pending = some c → s.fatal = false → s.spuriousFatal = false →
      decode s.build.dicePresent c = .illegal w → CompletionDoes s (s.selfChecked.illegalCommand c).clearPending
  | command (c i t) : s.pending = some c → s.fatal = false → s.spuriousFatal = false →
      decode s.build.dicePresent c = .legal i → exec i s.selfChecked = .next t →
      CommandDoes s.selfChecked i t → CompletionDoes s t.clearPending

/-- A completion never stops, and does one of the things listed. -/
theorem complete_does (s : State) : ∃ t, complete s = .next t ∧ CompletionDoes s t := by
  unfold complete
  split
  next h => exact ⟨_, rfl, .idle h⟩
  next c h =>
    by_cases hf : s.fatal = true
    · exact ⟨_, if_pos hf, .droppedFatal c h hf⟩
    rw [if_neg hf]
    have hf' : s.fatal = false := by simpa using hf
    by_cases hs : s.spuriousFatal = true
    · exact ⟨_, if_pos hs, .selfCheck c h hf' hs⟩
    rw [if_neg hs]
    have hs' : s.spuriousFatal = false := by simpa using hs
    unfold runCommand
    rw [State.selfChecked_build]
    cases hd : decode s.build.dicePresent c with
    | legal i =>
      obtain ⟨t, ht, hdoes⟩ := exec_does i s.selfChecked
      exact ⟨_, by simp [ht, finishCompletion], .command c i t h hf' hs' hd ht hdoes⟩
    | illegal w => exact ⟨_, rfl, .illegal c w h hf' hs' hd⟩

theorem complete_cases {s t : State} (h : complete s = .next t) : CompletionDoes s t := by
  obtain ⟨u, hu, hd⟩ := complete_does s
  rw [hu] at h
  cases h
  exact hd

/-- In a build that admits no self-check failure, a completion draws nothing and takes the command's rule. -/
theorem State.selfChecked_of_not_allowed {s : State} (h : s.build.allowSpuriousFatal = false) : s.selfChecked = s := by
  simp [State.selfChecked, h]

theorem State.spuriousFatal_of_not_allowed {s : State} (h : s.build.allowSpuriousFatal = false) :
    s.spuriousFatal = false := by simp [State.spuriousFatal, h]

/-! ### Host accesses -/

/-- Everything an admitted write does with FATAL = 0 and BUSY = 0 (45_session.md R214). -/
inductive WriteDoes (s : State) (off n : Nat) (v : Word) : State → Prop where
  | nothing : WriteDoes s off n v s
  | command : off = 0x008 → WriteDoes s off n v (s.issue v)
  | inlen : off = 0x014 → s.phase = .collecting → WriteDoes s off n v (s.setInlen v)
  | wsel : off = 0x01C → WriteDoes s off n v (s.setWsel v)
  | inbuf : 0x400 ≤ off → off + n ≤ 0x500 → s.phase = .collecting →
      WriteDoes s off n v (s.storeInput (off - 0x400) n v)

/-- An admitted access that starts in INBUF ends in it (20_memory.md R64). -/
theorem admittedAt_inbuf {off n : Nat} (h : admittedAt off n = true) (h1 : 0x400 ≤ off) (h2 : off < 0x500) :
    off + n ≤ 0x500 := by
  unfold admittedAt at h
  split at h
  next hc => exact hc.2
  next hc => simp at h; omega

theorem writeReg_does (s : State) (off n : Nat) (v : Word) (h : admittedAt off n = true) :
    WriteDoes s off n v (writeReg s (regAt off) n v) := by
  unfold regAt
  repeat' split
  all_goals simp only [writeReg]
  all_goals first | exact .nothing | skip
  · exact .command ‹_›
  · split
    · exact .inlen ‹_› ‹_›
    · exact .nothing
  · exact .wsel ‹_›
  · split
    · rename_i hr hp
      exact .inbuf hr.1 (admittedAt_inbuf h hr.1 hr.2) hp
    · exact .nothing

/-- Everything a step can do that answers a next state. -/
inductive StepDoes (s : State) : State → Prop where
  /-- An access that is not to the block. -/
  | elsewhere (e rest addr n) : s.schedule = e :: rest → (e = .read addr n ∨ ∃ v, e = .write addr n v) →
      touchesWindow s.build addr n = false → StepDoes s (s.withSchedule rest)
  /-- A read. -/
  | read (rest addr n) : s.schedule = .read addr n :: rest → touchesWindow s.build addr n = true →
      admitted s.build addr n = true → (s.busy = true → regAt (addr - s.build.base) = .status) →
      StepDoes s (((s.withSchedule rest).statusDrawn (regAt (addr - s.build.base))).logRead
        (readReg (s.withSchedule rest) (regAt (addr - s.build.base))))
  /-- A write with FATAL = 1. -/
  | ignored (rest addr n v) : s.schedule = .write addr n v :: rest → s.fatal = true → StepDoes s (s.withSchedule rest)
  /-- A write with FATAL = 0. -/
  | write (rest addr n v t) : s.schedule = .write addr n v :: rest → touchesWindow s.build addr n = true →
      admitted s.build addr n = true → s.busy = false → s.fatal = false →
      WriteDoes (s.withSchedule rest) (addr - s.build.base) n v t → StepDoes s t
  /-- A completion, scheduled or because nothing is. -/
  | completion (rest t) : (s.schedule = .completion :: rest ∨ (s.schedule = [] ∧ rest = [])) →
      CompletionDoes (s.withSchedule rest) t → StepDoes s t
  /-- Reset. -/
  | reset (rest) : s.schedule = .reset :: rest → StepDoes s (s.withSchedule rest).resetFrom

/-- What an access must meet to have a next state. -/
theorem onWindow_cases {s t u : State} {addr n : Nat} {ok : Bool} (h : onWindow s addr n ok t = .next u) :
    (touchesWindow s.build addr n = false ∧ u = s) ∨
    (touchesWindow s.build addr n = true ∧ admitted s.build addr n = true ∧ (s.busy = true → ok = true) ∧ u = t) := by
  unfold onWindow at h
  split at h
  next ht => cases h; exact .inl ⟨by simpa using ht, rfl⟩
  next ht =>
    split at h
    · cases h
    next ha =>
      split at h
      · cases h
      next hb =>
        cases h
        refine .inr ⟨by simpa using ht, by simpa using ha, fun hbusy => ?_, rfl⟩
        simpa [hbusy] using hb

/-! ### The forward equations -/

theorem admittedAt_lt {off n : Nat} (h : admittedAt off n = true) : off < 0x1000 ∧ 1 ≤ n := by
  unfold admittedAt at h
  split at h
  next hc => simp at h; omega
  next hc => simp at h; omega

/-- A 4-byte access at a multiple of 4 is admitted everywhere in the window (20_memory.md R64). -/
theorem admittedAt_four {off : Nat} (h : off < 0x1000) (ha : off % 4 = 0) : admittedAt off 4 = true := by
  unfold admittedAt
  split <;> simp [h, ha]

theorem admitted_of_offset {b : Build} {off n : Nat} (h : admittedAt off n = true) :
    touchesWindow b (b.base + off) n = true ∧ admitted b (b.base + off) n = true := by
  have := admittedAt_lt h
  constructor
  · simp only [touchesWindow, Bool.and_eq_true, decide_eq_true_eq]
    omega
  · simp [admitted, h]

theorem step_read {s : State} {rest : List Event} {off n : Nat}
    (hs : s.schedule = .read (s.build.base + off) n :: rest) (ha : admittedAt off n = true)
    (hb : s.busy = false ∨ regAt off = .status) :
    step s = .next (((s.withSchedule rest).statusDrawn (regAt off)).logRead
      (readReg (s.withSchedule rest) (regAt off))) := by
  obtain ⟨h1, h2⟩ := admitted_of_offset (b := s.build) ha
  have hb' : (s.busy && !decide (regAt off = .status)) = false := by rcases hb with h | h <;> simp [h]
  have hbw : (s.withSchedule rest).busy = s.busy := rfl
  unfold step advance
  rw [hs]
  simp [runEvent, hostRead, onWindow, h1, h2, hb', hbw]

theorem step_write {s : State} {rest : List Event} {off n : Nat} {v : Word}
    (hs : s.schedule = .write (s.build.base + off) n v :: rest) (ha : admittedAt off n = true)
    (hb : s.busy = false) :
    step s = .next (if s.fatal then s.withSchedule rest else writeReg (s.withSchedule rest) (regAt off) n v) := by
  obtain ⟨h1, h2⟩ := admitted_of_offset (b := s.build) ha
  have hbw : (s.withSchedule rest).busy = s.busy := rfl
  unfold step advance
  rw [hs]
  simp [runEvent, hostWrite, onWindow, h1, h2, hb, hbw]

/-- A step whose event is a completion is the completion (log 5). -/
theorem step_completion {s : State} (h : s.nextEvent = .completion) :
    step s = complete (s.withSchedule s.schedule.tail) := by
  unfold step advance
  unfold State.nextEvent at h
  split
  next hs => congr 1; cases s; simp at hs; subst hs; rfl
  next e rest hs => rw [hs] at h; simp at h; subst h; simp [hs, runEvent]

/-- The inversion of `step`. -/
theorem step_cases {s t : State} (h : step s = .next t) : StepDoes s t := by
  unfold step advance at h
  split at h
  next hs =>
    have hw : s.withSchedule [] = s := by cases s; cases hs; rfl
    exact .completion [] t (.inr ⟨hs, rfl⟩) (by rw [hw]; exact complete_cases h)
  next e rest hs =>
    cases e with
    | read addr n =>
      rcases onWindow_cases h with ⟨ht, rfl⟩ | ⟨ht, ha, hb, rfl⟩
      · exact .elsewhere _ rest addr n hs (.inl rfl) ht
      · exact .read rest addr n hs ht ha fun hbusy => of_decide_eq_true (hb hbusy)
    | write addr n v =>
      rcases onWindow_cases h with ⟨ht, rfl⟩ | ⟨ht, ha, hb, rfl⟩
      · exact .elsewhere _ rest addr n hs (.inr ⟨v, rfl⟩) ht
      · have hbusy : s.busy = false := by
          cases hb' : s.busy with
          | false => rfl
          | true => simpa using hb hb'
        by_cases hf : s.fatal = true
        · rw [if_pos (by exact hf)]
          exact .ignored rest addr n v hs hf
        · rw [if_neg (by exact hf)]
          have hoff : admittedAt (addr - s.build.base) n = true := by
            simp only [admitted, Bool.and_eq_true] at ha
            exact ha.2
          exact .write rest addr n v _ hs ht ha hbusy (by simpa using hf)
            (writeReg_does (s.withSchedule rest) (addr - s.build.base) n v hoff)
    | completion => exact .completion rest t (.inl hs) (complete_cases h)
    | reset => cases h; exact .reset rest hs

end Sys2Proof.Machine
end

