-- ==== Sys2Proof/Laws/Bus.lean ====
section
/-! SUPPORT. The bus, said once: where the offsets lead, which accesses are admitted, the byte lanes of a word, and what
a register read depends on. -/

namespace Sys2Proof.Machine

/-! ### Byte lanes -/

/-- Four bytes as a number, the first the least significant (20_memory.md R67). -/
theorem toNat_fourBytes (b0 b1 b2 b3 : Byte) : (b3 ++ b2 ++ b1 ++ b0 : Word).toNat =
    b3.toNat * 2 ^ 24 + b2.toNat * 2 ^ 16 + b1.toNat * 2 ^ 8 + b0.toNat := by
  have h0 := b0.isLt
  have h1 := b1.isLt
  have h2 := b2.isLt
  rw [BitVec.toNat_append, BitVec.toNat_append, BitVec.toNat_append, ← Nat.shiftLeft_add_eq_or_of_lt (by omega),
    ← Nat.shiftLeft_add_eq_or_of_lt (by omega), ← Nat.shiftLeft_add_eq_or_of_lt (by omega)]
  simp only [Nat.shiftLeft_eq]
  omega

/-- Lane `j` of four packed bytes is byte `j`. -/
theorem lane_fourBytes (b0 b1 b2 b3 : Byte) :
    ∀ j < 4, (b3 ++ b2 ++ b1 ++ b0 : Word).extractLsb' (8 * j) 8 = [b0, b1, b2, b3].getD j 0 := by
  intro j hj
  have h0 := b0.isLt
  have h1 := b1.isLt
  have h2 := b2.isLt
  have h3 := b3.isLt
  have : j = 0 ∨ j = 1 ∨ j = 2 ∨ j = 3 := by omega
  rcases this with rfl | rfl | rfl | rfl <;>
    (apply BitVec.eq_of_toNat_eq
     rw [BitVec.extractLsb'_toNat, toNat_fourBytes, Nat.shiftRight_eq_div_pow]
     simp
     omega)

/-! ### Offsets -/

theorem regAt_word {off : Nat} (h : 0x020 ≤ off ∧ off < 0x030) : regAt off = .word ((off - 0x020) / 4) := by
  unfold regAt
  repeat' split
  all_goals first | rfl | omega

theorem regAt_idx {off : Nat} (h : 0x100 ≤ off ∧ off < 0x160) : regAt off = .idx ((off - 0x100) / 4) := by
  unfold regAt
  repeat' split
  all_goals first | rfl | omega

theorem regAt_inbuf {off : Nat} (h : 0x400 ≤ off ∧ off < 0x500) : regAt off = .inbuf (off - 0x400) := by
  unfold regAt
  repeat' split
  all_goals first | rfl | omega

/-- The admitted accesses, as 20_memory.md R64 lists them. -/
theorem admittedAt_iff {off n : Nat} (h : off < 0x1000) : admittedAt off n = true ↔
    (n = 4 ∧ off % 4 = 0) ∨ (0x400 ≤ off ∧ off + n ≤ 0x500 ∧ (n = 1 ∨ n = 2) ∧ off % n = 0) := by
  unfold admittedAt
  split
  next hc =>
    simp only [Bool.and_eq_true, Bool.or_eq_true, decide_eq_true_eq]
    constructor
    · rintro ⟨(rfl | rfl) | rfl, h2⟩ <;> tauto
    · rintro (⟨rfl, h2⟩ | ⟨_, _, h3 | h3, h4⟩)
      · exact ⟨.inr rfl, h2⟩
      · exact ⟨.inl (.inl h3), h4⟩
      · exact ⟨.inl (.inr h3), h4⟩
  next hc =>
    simp only [Bool.and_eq_true, decide_eq_true_eq, h, true_and]
    constructor
    · tauto
    · rintro (h | ⟨a, b, _⟩)
      · exact h
      · exact absurd ⟨a, b⟩ hc

/-- An access that starts in the window touches it. -/
theorem touchesWindow_of_offset {b : Build} {off n : Nat} (h : off < 0x1000) :
    touchesWindow b (b.base + off) n = true := by
  simp [touchesWindow]
  omega

/-! ### Reads -/

theorem errCode_le (e : ErrCode) : errCode e ≤ 6 := by cases e <;> decide

theorem phaseCode_le (p : Phase) : phaseCode p ≤ 4 := by cases p <;> decide

/-- Only a busy STATUS read draws a free value. -/
theorem statusDrawn_of_not_busy {s : State} (h : s.busy = false) (r : Reg) : s.statusDrawn r = s := by
  simp [State.statusDrawn, h]

/-- A read depends on the block's registers alone, when not busy. -/
theorem readReg_congr {s t : State} (h : s.SameBlock t) (hb : s.busy = false) (r : Reg) : readReg t r = readReg s r := by
  obtain ⟨a1, a2, a3, a4, a5, a6, a7, a8, a9, a10, a11, a12⟩ := h
  have hb' : t.busy = false := by simpa [State.busy, a12] using hb
  cases r <;> simp [readReg, statusRead, hb, hb', statusWord, wordWindow, State.idxAt, a1, a2, a3, a4, a5, a6, a9, a10,
    a11]

end Sys2Proof.Machine
end

