-- ==== Sys2Proof/Laws/Invariant.lean ====
section
/-! SUPPORT. The invariants under the shared operations: each operation keeps them, said once. -/

namespace Sys2Proof.Machine

variable {s t : State}

/-- The invariants are about the block's registers and buffers alone. -/
theorem State.Inv.same (h : s.Inv) (e : s.SameBlock t) : t.Inv := by
  obtain ⟨a1, a2, a3, a4, a5, a6, a7, a8, a9, a10, a11, a12⟩ := e
  constructor
  · rw [a2, a6, a7]; exact h.input
  · rw [a2, a8, a9, a1]; exact h.entropy
  · rw [a2, a10]; exact h.indices
  · rw [a4, a2, a12, a11]; exact h.fatal
  · rw [a7]; exact h.memory
  · rw [a8, a1]; exact h.width
  · rw [a9, a1]; exact h.csumFits
  · rw [a2, a8, a9, a1]; exact h.csumIs
  · rw [a2, a10, a8, a9, a1]; exact h.idxIs

/-- An error report keeps them (60_exceptions.md R244). -/
theorem State.Inv.raiseErr (h : s.Inv) (c : ErrCode) (n : Nat) : (s.raiseErr c n).Inv :=
  ⟨h.input, h.entropy, h.indices, h.fatal, h.memory, h.width, h.csumFits, h.csumIs, h.idxIs⟩

theorem State.Inv.clearPending (h : s.Inv) : s.clearPending.Inv :=
  ⟨h.input, h.entropy, h.indices, fun hf => ⟨(h.fatal hf).1, rfl, (h.fatal hf).2.2⟩, h.memory, h.width, h.csumFits,
    h.csumIs, h.idxIs⟩

/-- Commit of ENT_BITS bits keeps them (40_acquisition.md R112). -/
theorem State.Inv.commit (h : s.Inv) (hp : s.phase = .collecting) (hf : s.fatal = false) {e : List Bool}
    (he : e.length = entBits s.build.w) : (s.commit e).Inv where
  input := fun _ => ⟨rfl, rfl⟩
  entropy := fun h => by simp [Phase.holdsEntropy] at h
  indices := fun _ => h.indices (by simp [hp])
  fatal := fun h => by simp [hf] at h
  memory := Memory.wf_nil
  width := he
  csumFits := by
    show (BitVec.ofNat 8 _).toNat < _
    rw [toNat_checksum]
    exact checksum_lt _ _
  csumIs := fun _ => toNat_checksum _ _
  idxIs := fun h => by simp at h

/-- The fatal entry brings them about from every state (60_exceptions.md R246). -/
theorem State.Inv.fatalEntry (c : ErrCode) : (s.fatalEntry c).clearPending.Inv where
  input := fun _ => ⟨rfl, rfl⟩
  entropy := fun _ => ⟨rfl, rfl⟩
  indices := fun _ => rfl
  fatal := fun _ => ⟨rfl, rfl, rfl⟩
  memory := Memory.wf_nil
  width := by simp
  csumFits := by simp
  csumIs := fun h => by simp [Phase.holdsEntropy] at h
  idxIs := fun h => by simp at h

end Sys2Proof.Machine
end

