-- ==== Sys2Proof/Laws/PerInstr.lean ====
section
/-! SUPPORT. Statements about the commands as syntax, one lemma per constructor. -/

namespace Sys2Proof.Laws.RoundTrip

/-- The encoded word of a command, on the bus and as a table number, decodes to it in every build that has it, and is
rejected by name in every other (spec/30_encoding.md R92, R93, R95). -/
def Statement (i : Instr) : Prop :=
  (∀ b : Build, i.wf b = true → decode b.dicePresent (encode i) = .legal i) ∧
    (∀ b : Build, i.wf b = false → decode b.dicePresent (encode i) = .illegal .diceAbsent) ∧
    decodeBytes true (bytesOfWord (encode i)) = .legal i ∧ decodeTableWord 32 (encode i).toNat = some i

theorem openSession : Statement .openSession :=
  ⟨fun b _ => by cases b.dicePresent <;> decide, fun _ h => by simp [Instr.wf] at h, by decide, by decide⟩

theorem abort : Statement .abort :=
  ⟨fun b _ => by cases b.dicePresent <;> decide, fun _ h => by simp [Instr.wf] at h, by decide, by decide⟩

theorem acqRng : Statement .acqRng :=
  ⟨fun b _ => by cases b.dicePresent <;> decide, fun _ h => by simp [Instr.wf] at h, by decide, by decide⟩

theorem acqRaw : Statement .acqRaw :=
  ⟨fun b _ => by cases b.dicePresent <;> decide, fun _ h => by simp [Instr.wf] at h, by decide, by decide⟩

theorem acqCoin : Statement .acqCoin :=
  ⟨fun b _ => by cases b.dicePresent <;> decide, fun _ h => by simp [Instr.wf] at h, by decide, by decide⟩

theorem acqDice : Statement .acqDice :=
  ⟨fun b h => by rw [show b.dicePresent = true from h]; decide,
    fun b h => by rw [show b.dicePresent = false from h]; decide, by decide, by decide⟩

theorem derive : Statement .derive :=
  ⟨fun b _ => by cases b.dicePresent <;> decide, fun _ h => by simp [Instr.wf] at h, by decide, by decide⟩

theorem finish : Statement .finish :=
  ⟨fun b _ => by cases b.dicePresent <;> decide, fun _ h => by simp [Instr.wf] at h, by decide, by decide⟩

end Sys2Proof.Laws.RoundTrip
end

