-- ==== Sys2Proof/Tests/Slice0.lean ====
section
/-! SUPPORT. Tests against the values of spec/95_test_vectors.md and the worked examples of the rules, and one witness
for every obligation with hypotheses. -/

namespace Sys2Proof.Tests

-- One theorem at a time: waiting threads cost memory.
set_option Elab.async false

open Sys2Proof.Machine

/-! ### Helpers -/

/-- The reset state moved to a phase. -/
def inPhase (p : Phase) : State := { State.reset with phase := p }

/-- An INBUF holding these bytes from position 0 on. -/
def bufferOf (l : List Byte) : Memory := (l.zipIdx.map (fun x => (x.2, x.1))).filter (fun x => x.2 ≠ 0)

/-- COLLECTING with an input loaded. -/
def loaded (l : List Byte) : State :=
  { inPhase .collecting with inbuf := bufferOf l, inlen := BitVec.ofNat 9 l.length }

/-- The 32 bytes 0x00 to 0x1F. -/
def counting : List Byte := (List.range 32).map (BitVec.ofNat 8)

/-- V-S2 with its checksum appended. -/
def appended : State := { inPhase .csumAppended with csum := 0x66 }

/-- V-S2 with its phrase derived. -/
def derived : State :=
  { inPhase .derived with csum := 0x66, idx := Vector.ofFn (fun i : Fin 24 => if i.val = 23 then 102 else 0) }

/-- OPEN pending. -/
def pendingOpen : State := { State.reset with pending := some 0x1 }

/-- The fatal state. -/
def locked : State := { inPhase .idle with fatal := true, err := .fatalRng }

/-- The state with these events next. -/
def next (s : State) (es : List Event) : State := s.withSchedule es

/-- The W = 12 reference build's reset state. -/
def reset12 : State :=
  { State.reset with build := { Build.reference with w := .w12 }, ebuf := List.replicate 128 false }

/-- Whether an outcome is a next state that meets a check. -/
def answers (o : Host.Outcome State Fault Refusal) (p : State → Bool) : Bool :=
  match o with
  | .next t => p t
  | .fault _ => false
  | .refused _ => false

theorem answers_next {o : Host.Outcome State Fault Refusal} (h : answers o (fun _ => true) = true) :
    ∃ t, o = .next t := by
  cases o with
  | next t => exact ⟨t, rfl⟩
  | fault _ => cases h
  | refused _ => cases h

theorem answers_iff {o : Host.Outcome State Fault Refusal} {p : State → Bool} (h : answers o p = true) :
    ∃ t, o = .next t ∧ p t = true := by
  cases o with
  | next t => exact ⟨t, rfl, h⟩
  | fault _ => cases h
  | refused _ => cases h

/-! ### WellFormed -/

theorem test_wf_dice_needs_w24 :
    Instr.acqDice.wf { Build.reference with w := .w21 } = false ∧ Instr.acqDice.wf Build.reference = true := by decide

theorem test_wf_wordBytes_bounds :
    { Build.reference with wordBytes := 0 }.wf = false ∧ { Build.reference with wordBytes := 17 }.wf = false ∧
      { Build.reference with wordBytes := 16 }.wf = true := by decide

theorem test_wf_base_alignment : { Build.reference with base := 0x800 }.wf = false := by decide

theorem test_wf_hash_length :
    { Build.reference with hash := .pluggable 7 }.wf = false ∧
      { Build.reference with hash := .pluggable 8 }.wf = true := by decide

theorem test_wf_dictionary :
    dictEntriesOk 8 [(2048, [0x61])] = false ∧ dictEntriesOk 8 [(0, [])] = false ∧
      dictEntriesOk 8 [(0, [0x41])] = false ∧ dictEntriesOk 1 [(0, [0x61, 0x62])] = false ∧
      dictEntriesOk 8 [(0, [0x61]), (0, [0x62])] = false ∧ dictEntriesOk 8 [(0, [0x61]), (1, [0x61])] = false ∧
      dictEntriesOk 8 [(0, [0x61]), (1, [0x7A])] = true := by decide

/-! ### Decode: the words of 30_encoding.md R92 and R100 written out bit by bit -/

theorem test_decode_open : decode true 0b00000000000000000000000000000001 = .legal .openSession := by decide
theorem test_decode_abort : decode true 0b00000000000000000000000000000010 = .legal .abort := by decide
theorem test_decode_acqRng : decode true 0b00000000000000000000000000010000 = .legal .acqRng := by decide
theorem test_decode_acqRaw : decode true 0b00000000000000000000000000010001 = .legal .acqRaw := by decide
theorem test_decode_acqCoin : decode true 0b00000000000000000000000000010010 = .legal .acqCoin := by decide
theorem test_decode_acqDice : decode true 0b00000000000000000000000000010011 = .legal .acqDice := by decide
theorem test_decode_derive : decode true 0b00000000000000000000000000100000 = .legal .derive := by decide
theorem test_decode_finish : decode true 0b00000000000000000000000000110000 = .legal .finish := by decide

/-- V-E, rows E-1 to E-6. -/
theorem test_decode_illegal :
    decode true 0x00000000 = .illegal .unknownOp ∧ decode true 0x00000113 = .illegal .reservedBits ∧
      decode true 0x01000001 = .illegal .reservedBits ∧ decode true 0x00000003 = .illegal .unknownOp ∧
      decode true 0x000000FF = .illegal .unknownOp ∧ decode false 0x00000013 = .illegal .diceAbsent ∧
      decodeBytes true [0x01, 0x00] = .illegal .badLength := by decide

/-- The words of the table, as the host numbers them. -/
theorem test_decodeTableWord :
    decodeTableWord 32 0x13 = some .acqDice ∧ decodeTableWord 8 0x13 = some .acqDice ∧
      decodeTableWord 32 0x113 = none ∧ decodeTableWord 64 0x100000001 = none := by decide

/-! ### SHA-256 and the checksum: 43_sha256.md R179, V-C -/

theorem test_sha256_abc : sha256 [0x61, 0x62, 0x63] =
    [0xba, 0x78, 0x16, 0xbf, 0x8f, 0x01, 0xcf, 0xea, 0x41, 0x41, 0x40, 0xde, 0x5d, 0xae, 0x22, 0x23,
     0xb0, 0x03, 0x61, 0xa3, 0x96, 0x17, 0x7a, 0x9c, 0xb4, 0x10, 0xff, 0x61, 0xf2, 0x00, 0x15, 0xad] := by
  decide +kernel

theorem test_sha256_empty : sha256 [] =
    [0xe3, 0xb0, 0xc4, 0x42, 0x98, 0xfc, 0x1c, 0x14, 0x9a, 0xfb, 0xf4, 0xc8, 0x99, 0x6f, 0xb9, 0x24,
     0x27, 0xae, 0x41, 0xe4, 0x64, 0x9b, 0x93, 0x4c, 0xa4, 0x95, 0x99, 0x1b, 0x78, 0x52, 0xb8, 0x55] := by
  decide +kernel

theorem test_sha256_zeros : sha256 (List.replicate 32 0) =
    [0x66, 0x68, 0x7a, 0xad, 0xf8, 0x62, 0xbd, 0x77, 0x6c, 0x8f, 0xc1, 0x8b, 0x8e, 0x9f, 0x8e, 0x20,
     0x08, 0x97, 0x14, 0x85, 0x6e, 0xe2, 0x33, 0xb3, 0x90, 0x2a, 0x59, 0x1d, 0x0d, 0x5f, 0x29, 0x25] := by
  decide +kernel

/-- V-C, rows C-7 and C-9: the checksum of a build with fewer than eight checksum bits. -/
theorem test_checksum_other_builds :
    checksum { Build.reference with w := .w12 } (List.replicate 128 false) = 0x3 ∧
      checksum { Build.reference with w := .w3 } (List.replicate 32 false) = 0x1 := by decide +kernel

/-! ### The dice fold: V-S5, V-D -/

theorem test_fold_table :
    fold 1 1 1 1 = 0x000 ∧ fold 1 1 1 2 = 0x7FF ∧ fold 1 1 2 1 = 0x004 ∧ fold 2 1 1 1 = 0x100 ∧
      fold 1 2 3 6 = 0x7D5 ∧ fold 1 2 4 6 = 0x7D1 ∧ fold 2 2 2 2 = 0x6DB ∧ fold 3 3 3 3 = 0x249 ∧
      fold 3 4 5 6 = 0x58D ∧ fold 4 4 4 4 = 0x492 ∧ fold 5 5 5 5 = 0x492 ∧ fold 6 5 4 3 = 0x58D ∧
      fold 6 6 6 1 = 0x5B4 ∧ fold 6 6 6 6 = 0x249 := by decide

/-- V-D, row D-2: groups that do not align with bytes. -/
theorem test_dice_sixes : bytesOf (diceEncode 24 (fun _ => 6)) =
    [0x49, 0x29, 0x25, 0x24, 0xa4, 0x94, 0x92, 0x92, 0x52, 0x4a, 0x49, 0x49, 0x29, 0x25, 0x24, 0xa4,
     0x94, 0x92, 0x92, 0x52, 0x4a, 0x49, 0x49, 0x29, 0x25, 0x24, 0xa4, 0x94, 0x92, 0x92, 0x52, 0x4f] := by
  decide +kernel

/-! ### The commands: V-P and V-A -/

/-- P-1 and P-2. -/
theorem test_open :
    answers (exec .openSession State.reset) (fun t => statusWord t = 0x1) ∧
      answers (exec .openSession (inPhase .collecting)) (fun t => statusWord t = 0x41 ∧ t.errinfo = 1) := by decide

/-- P-10 and P-11. -/
theorem test_abort :
    answers (exec .abort derived) (fun t => statusWord t = 0 ∧ t.csum = 0 ∧ t.idxAt 23 = 0) ∧
      answers (exec .abort locked) (fun t => statusWord t = 0x150) := by decide +kernel

/-- A-16 and A-17. -/
theorem test_acqRng :
    answers (exec .acqRng { inPhase .collecting with rngReady := [.bytes counting] })
      (fun t => statusWord t = 0x2 ∧ t.csum = 0x63 ∧ t.rngRequests = 1) ∧
    answers (exec .acqRng { inPhase .collecting with rngReady := [.exhausted] })
      (fun t => statusWord t = 0x150 ∧ t.csum = 0) := by decide +kernel

/-- A-1 and A-4: byte 32 is ignored. -/
theorem test_acqRaw :
    answers (exec .acqRaw (loaded counting)) (fun t => statusWord t = 0x2 ∧ t.csum = 0x63 ∧ t.inlen = 0) ∧
    answers (exec .acqRaw { loaded (List.replicate 32 0 ++ [0xFF]) with inlen := 32 })
      (fun t => statusWord t = 0x2 ∧ t.csum = 0x66) := by decide +kernel

/-- A-9 and A-11. -/
theorem test_acqCoin :
    answers (exec .acqCoin (loaded ([0x48, 0x48, 0x48, 0x78, 0x48, 0x79] ++ List.replicate 250 0x48)))
      (fun t => statusWord t = 0x21 ∧ t.errinfo = 3 ∧ t.inlen = 256) ∧
    answers (exec .acqCoin (loaded ((List.replicate 64 [0x68, 0x48, 0x74, 0x54]).flatten)))
      (fun t => statusWord t = 0x2 ∧ t.csum = 0xC2 ∧ bytesOf t.ebuf = List.replicate 32 0xCC) := by decide +kernel

/-- A-13 and A-14. -/
theorem test_acqDice :
    answers (exec .acqDice (loaded (List.replicate 94 0x31 ++ [0x30])))
      (fun t => statusWord t = 0x21 ∧ t.errinfo = 0x5E) ∧
    answers (exec .acqDice (loaded (List.replicate 95 0x36))) (fun t => statusWord t = 0x2 ∧ t.csum = 0x87) := by
  decide +kernel

/-- I-3 in full. -/
theorem test_derive :
    answers (exec .derive { inPhase .csumAppended with ebuf := bitsOf counting, csum := 0x63 })
      (fun t => statusWord t = 0x3 ∧ (List.range 24).map (fun i => (t.idxAt i).toNat) =
        [0, 64, 1030, 64, 643, 28, 257, 266, 88, 771, 540, 241] ++
        [8, 1096, 610, 1045, 176, 1478, 50, 417, 1422, 116, 963, 1891]) := by decide +kernel

/-- I-5: W = 12, and the registers from W on. -/
theorem test_derive_w12 :
    answers (exec .derive { reset12 with phase := .csumAppended, ebuf := List.replicate 128 true, csum := 0x5 })
      (fun t => t.idxAt 0 = 2047 ∧ t.idxAt 10 = 2047 ∧ t.idxAt 11 = 2037 ∧ t.idxAt 12 = 0) := by decide +kernel

/-- P-8 and P-4. -/
theorem test_finish :
    answers (exec .finish { derived with wsel := 23 })
      (fun t => statusWord t = 0x4 ∧ t.csum = 0 ∧ t.idxAt 23 = 0 ∧ t.wsel = 0) ∧
    answers (exec .finish appended) (fun t => statusWord t = 0x42 ∧ t.errinfo = 2 ∧ t.csum = 0x66) := by
  decide +kernel

/-! ### The bus: V-R, V-E, V-I, V-P -/

/-- R-3 and R-4. -/
theorem test_cfg :
    cfgWord { Build.reference with w := .w12 } = 0x0080040C ∧
      cfgWord { Build.reference with w := .w3 } = 0x00200103 := by decide

/-- R-7 and R-9: the bits a write keeps. -/
theorem test_write_truncates :
    answers (step (next State.reset [.write 0x01C 4 0x3F])) (fun t => readReg t .wsel = 31) ∧
      answers (step (next (inPhase .collecting) [.write 0x014 4 0x3FF])) (fun t => readReg t .inlen = 511) := by decide

/-- R-10: lanes of a 16-bit access. -/
theorem test_inbuf_lanes :
    answers (step (next (inPhase .collecting) [.write 0x400 2 0x4854]))
      (fun t => t.inbufByte 0 = 0x54 ∧ t.inbufByte 1 = 0x48 ∧ t.inbufByte 2 = 0) := by decide

/-- R-8 and R-13: writes that are dropped. -/
theorem test_write_dropped :
    answers (step (next State.reset [.write 0x014 4 5])) (fun t => t = State.reset) ∧
      answers (step (next State.reset [.write 0x030 4 0xFFFFFFFF])) (fun t => t = State.reset) := by
  decide +kernel

/-- The synthetic dictionary of V-I, WSEL = 23: the word "w0102". -/
theorem test_word_window :
    packChars (dictWord { Build.reference with dict := [(102, [0x77, 0x30, 0x31, 0x30, 0x32])] } 102) 0 = 0x30313077 ∧
      packChars (dictWord { Build.reference with dict := [(102, [0x77, 0x30, 0x31, 0x30, 0x32])] } 102) 1 = 0x32 := by
  decide

/-- E-3: the completion of an illegal word, ERRINFO = bits [15:0]. -/
theorem test_illegal_completion :
    answers (step ((inPhase .done).withFetchWord 32 0x01000001))
      (fun t => statusWord t = 0x34 ∧ t.errinfo = 0x0001 ∧ t.pending = none) := by decide

/-- P-12: reset leaves the fatal state. -/
theorem test_reset_unlocks :
    answers (step (next locked [.reset])) (fun t => t = State.reset) := by decide +kernel

/-- The first instruction after reset: OPEN. -/
theorem test_first_command :
    answers (step (State.reset.withFetchWord 32 0x00000001)) (fun t => t.phase = .collecting ∧ t.pending = none) := by
  decide

/-- 30_encoding.md R100, last example. -/
theorem test_script_loadsym :
    scriptLOADSYM Build.reference [0x31, 0x32, 0x33, 0x34, 0x35] =
      [.write 0x400 4 0x34333231, .write 0x404 1 0x35, .write 0x014 4 5] := by decide

/-! ### Witnesses: for each obligation with hypotheses, values that meet all of them, clause by clause -/

theorem appended_inv : appended.Inv where
  input := by decide
  entropy := by decide
  indices := by decide
  fatal := by decide
  memory := by decide
  width := by decide +kernel
  csumFits := by decide
  csumIs := by decide +kernel
  idxIs := by decide

theorem derived_inv : derived.Inv where
  input := by decide
  entropy := by decide
  indices := by decide
  fatal := by decide
  memory := by decide
  width := by decide +kernel
  csumFits := by decide
  csumIs := by decide +kernel
  idxIs := by decide +kernel

theorem reset_inv : State.reset.Inv where
  input := by decide
  entropy := by decide +kernel
  indices := by decide
  fatal := by decide
  memory := by decide
  width := by decide +kernel
  csumFits := by decide
  csumIs := by decide
  idxIs := by decide

theorem done_inv : (inPhase .done).Inv where
  input := by decide
  entropy := by decide +kernel
  indices := by decide
  fatal := by decide
  memory := by decide
  width := by decide +kernel
  csumFits := by decide
  csumIs := by decide
  idxIs := by decide

theorem locked_inv : locked.Inv where
  input := by decide
  entropy := by decide +kernel
  indices := by decide
  fatal := by decide
  memory := by decide
  width := by decide +kernel
  csumFits := by decide
  csumIs := by decide
  idxIs := by decide

theorem collecting_inv {s : State} (hp : s.phase = .collecting) (hf : s.fatal = false) (hm : Memory.wf s.inbuf)
    (hb : s.build = Build.reference) (he : s.ebuf = zeroEntropy Build.reference) (hc : s.csum = 0)
    (hi : s.idx = zeroIdx) : s.Inv where
  input h := absurd hp h
  entropy _ := ⟨by rw [he, hb], hc⟩
  indices _ := hi
  fatal h := by rw [hf] at h; cases h
  memory := hm
  width := by rw [he, hb]; decide +kernel
  csumFits := by rw [hc, hb]; decide
  csumIs h := by rw [hp] at h; cases h
  idxIs h := by rw [hp] at h; cases h

theorem witness_OpenBeginsASession :
    (State.reset.fatal = false ∧ State.reset.phase = .idle ∧ State.reset.Inv) ∧
    ((inPhase .done).fatal = false ∧ (inPhase .done).phase = .done ∧ (inPhase .done).Inv) ∧
    (∀ p ∈ [Phase.collecting, .csumAppended, .derived], (inPhase p).fatal = false ∧ (inPhase p).phase = p) ∧
    (∃ s : State, s.phase = .idle ∧ s.busy = false ∧ s.schedule = .write (s.build.base + 0x4FF) 1 7 :: []) :=
  ⟨⟨rfl, rfl, reset_inv⟩, ⟨rfl, rfl, done_inv⟩, by decide, ⟨next State.reset [.write 0x4FF 1 7], rfl, rfl, rfl⟩⟩

theorem witness_AbortZeroizesFromEveryPhase :
    derived.fatal = false ∧ locked.fatal = true ∧
      (State.reset.Inv ∧ State.reset.fatal = false ∧ State.reset.phase = .idle ∧ State.reset.wsel = 0) :=
  ⟨rfl, rfl, reset_inv, rfl, rfl, rfl⟩

theorem witness_FinishEndsTheSession :
    (derived.fatal = false ∧ derived.phase = .derived ∧ derived.pending = none ∧ derived.Inv) ∧
      (appended.fatal = false ∧ appended.phase ≠ .derived) :=
  ⟨⟨rfl, rfl, rfl, derived_inv⟩, rfl, by decide⟩

theorem witness_AcqRngCommitsTheAnswerOrLocks :
    (State.reset.fatal = false ∧ State.reset.phase ≠ .collecting) ∧
    (∃ (s : State) (b : List Byte), s.fatal = false ∧ s.phase = .collecting ∧ s.rngReady = .bytes b :: [] ∧
      b.length = entBytes s.build.w) ∧
    (∃ s : State, s.fatal = false ∧ s.phase = .collecting ∧ s.rngReady = .exhausted :: []) ∧
    (∃ s : State, s.fatal = false ∧ s.phase = .collecting ∧ s.rngReady = []) :=
  ⟨by decide, ⟨{ inPhase .collecting with rngReady := [.bytes counting] }, counting, rfl, rfl, rfl, by decide +kernel⟩,
    ⟨{ inPhase .collecting with rngReady := [.exhausted] }, rfl, rfl, rfl⟩, ⟨inPhase .collecting, rfl, rfl, rfl⟩⟩

theorem read_cells (l : List Byte) (n k : Nat) (h : n ≤ k) :
    Memory.read (((l.zipIdx n).map (fun x => (x.2, x.1))).filter (fun x => x.2 ≠ 0)) k = l.getD (k - n) 0 := by
  induction l generalizing n with
  | nil => rfl
  | cons b l ih =>
    rw [List.zipIdx_cons, List.map_cons, List.filter_cons]
    by_cases hk : k = n
    · subst hk
      split
      · simp [Memory.read_cons]
      · rw [Memory.read_eq_zero]
        · simp_all
        · intro x hx
          simp only [List.mem_filter, List.mem_map, Prod.exists, List.mem_zipIdx_iff_le_and_getElem?_sub] at hx
          obtain ⟨⟨c, m, hm, rfl⟩, -⟩ := hx
          show m ≠ k
          omega
    · have hs : k - n = k - (n + 1) + 1 := by omega
      rw [hs, List.getD_cons_succ, ← ih (n + 1) (by omega)]
      split
      · rw [Memory.read_cons, if_neg hk]
      · rfl

/-- What INBUF reads as in a loaded state. -/
theorem inbufByte_loaded (l : List Byte) (k : Nat) : (loaded l).inbufByte k = l.getD k 0 :=
  read_cells l 0 k (Nat.zero_le k)

theorem witness_AcqRawCommitsHostBytes :
    (State.reset.fatal = false ∧ State.reset.phase ≠ .collecting) ∧
    (∀ n ∈ [31, 33], ∃ s : State, s.fatal = false ∧ s.phase = .collecting ∧ s.inlen.toNat = n ∧
      s.inlen.toNat ≠ entBytes s.build.w) ∧
    (∃ s : State, s.fatal = false ∧ s.phase = .collecting ∧ s.inlen.toNat = entBytes s.build.w) := by
  refine ⟨by decide, ?_, loaded counting, by decide +kernel⟩
  intro n hn
  refine ⟨{ inPhase .collecting with inlen := BitVec.ofNat 9 n }, rfl, rfl, ?_⟩
  revert n
  decide

theorem witness_AcqCoinCommitsFlips :
    (State.reset.fatal = false ∧ State.reset.phase ≠ .collecting) ∧
    (∀ n ∈ [255, 257], ∃ s : State, s.fatal = false ∧ s.phase = .collecting ∧ s.inlen.toNat = n ∧
      s.inlen.toNat ≠ entBits s.build.w) ∧
    (∃ s : State, s.fatal = false ∧ s.phase = .collecting ∧ s.inlen.toNat = entBits s.build.w ∧
      0 < entBits s.build.w ∧ s.inbufByte 0 ∉ [0x48, 0x68, 0x54, 0x74]) ∧
    (∃ s : State, s.fatal = false ∧ s.phase = .collecting ∧ s.inlen.toNat = entBits s.build.w ∧
      255 < entBits s.build.w ∧ s.inbufByte 255 ∉ [0x48, 0x68, 0x54, 0x74] ∧
      ∀ j < 255, s.inbufByte j ∈ [0x48, 0x68, 0x54, 0x74]) ∧
    (∃ s : State, s.fatal = false ∧ s.phase = .collecting ∧ s.inlen.toNat = entBits s.build.w ∧
      ∀ k < entBits s.build.w, s.inbufByte k ∈ [0x48, 0x68, 0x54, 0x74]) := by
  refine ⟨by decide, ?_, ⟨loaded (List.replicate 256 0x78), ?_⟩,
    ⟨loaded (List.replicate 255 0x48 ++ [0x78]), ?_⟩, loaded (List.replicate 256 0x74), ?_⟩
  rotate_left
  · simp only [inbufByte_loaded]; decide +kernel
  · simp only [inbufByte_loaded]; decide +kernel
  · simp only [inbufByte_loaded]; decide +kernel
  intro n hn
  refine ⟨{ inPhase .collecting with inlen := BitVec.ofNat 9 n }, rfl, rfl, ?_⟩
  revert n
  decide

theorem witness_AcqDiceCommitsFoldedRolls :
    (reset12.fatal = false ∧ reset12.build.w ≠ .w24) ∧
    (State.reset.fatal = false ∧ State.reset.build.w = .w24 ∧ State.reset.phase ≠ .collecting) ∧
    (∀ n ∈ [94, 96], ∃ s : State, s.fatal = false ∧ s.build.w = .w24 ∧ s.phase = .collecting ∧ s.inlen.toNat = n ∧
      s.inlen.toNat ≠ 95) ∧
    (∃ s : State, s.fatal = false ∧ s.build.w = .w24 ∧ s.phase = .collecting ∧ s.inlen.toNat = 95 ∧
      s.inbufByte 0 ∉ [0x31, 0x32, 0x33, 0x34, 0x35, 0x36]) ∧
    (∃ s : State, s.fatal = false ∧ s.build.w = .w24 ∧ s.phase = .collecting ∧ s.inlen.toNat = 95 ∧
      s.inbufByte 94 ∉ [0x31, 0x32, 0x33, 0x34, 0x35, 0x36] ∧
      ∀ j < 94, s.inbufByte j ∈ [0x31, 0x32, 0x33, 0x34, 0x35, 0x36]) ∧
    (∃ s : State, s.fatal = false ∧ s.build.w = .w24 ∧ s.phase = .collecting ∧ s.inlen.toNat = 95 ∧
      ∀ k < 95, s.inbufByte k ∈ [0x31, 0x32, 0x33, 0x34, 0x35, 0x36]) := by
  refine ⟨by decide, by decide, ?_, ⟨loaded (0x37 :: List.replicate 94 0x31), by decide +kernel⟩,
    ⟨loaded (List.replicate 94 0x31 ++ [0x30]), by decide +kernel⟩, loaded (List.replicate 95 0x36), by decide +kernel⟩
  intro n hn
  refine ⟨{ inPhase .collecting with inlen := BitVec.ofNat 9 n }, rfl, rfl, rfl, ?_⟩
  revert n
  decide

theorem witness_DeriveSlicesTheCombinedBuffer :
    (State.reset.fatal = false ∧ State.reset.phase ≠ .csumAppended) ∧
    (appended.fatal = false ∧ appended.phase = .csumAppended ∧
      appended.ebuf.length = entBits appended.build.w) ∧
    (∃ s : State, s.fatal = false ∧ s.phase = .csumAppended ∧
      s.ebuf = List.replicate (entBits s.build.w) false ∧ s.csum = 0) ∧
    (∃ s : State, s.fatal = false ∧ s.phase = .csumAppended ∧
      s.ebuf = List.replicate (entBits s.build.w) true) :=
  ⟨by decide, by decide +kernel, ⟨inPhase .csumAppended, by decide +kernel⟩,
    ⟨{ inPhase .csumAppended with ebuf := List.replicate 256 true }, by decide +kernel⟩⟩

theorem witness_WorkedExamplesOfTheCommands :
    (∃ s : State, s.fatal = false ∧ s.phase = .collecting ∧ s.build.w = .w24 ∧ s.build.hash = .sha256 ∧
      s.rngReady = .bytes (List.replicate 32 0) :: []) ∧
    (∃ s : State, s.fatal = false ∧ s.phase = .collecting ∧ s.build.w = .w24 ∧ s.build.hash = .sha256 ∧
      s.inlen = 32 ∧ ∀ k < 32, s.inbufByte k = BitVec.ofNat 8 k) ∧
    (∃ s : State, s.fatal = false ∧ s.phase = .collecting ∧ s.build.w = .w24 ∧ s.build.hash = .sha256 ∧
      s.inlen = 256 ∧ ∀ k < 256, s.inbufByte k = 0x48) ∧
    (∃ s : State, s.fatal = false ∧ s.build.w = .w24 ∧ s.phase = .collecting ∧ s.build.hash = .sha256 ∧
      s.inlen = 95 ∧ ∀ k < 95, s.inbufByte k = 0x31) ∧
    (∃ s : State, s.fatal = false ∧ s.phase = .csumAppended ∧ s.build.w = .w24 ∧
      s.ebuf = List.replicate 256 false ∧ s.csum = 0x66) :=
  ⟨⟨{ inPhase .collecting with rngReady := [.bytes (List.replicate 32 0)] }, rfl, rfl, rfl, rfl, rfl⟩,
    ⟨loaded counting, by decide +kernel⟩, ⟨loaded (List.replicate 256 0x48), by simp only [inbufByte_loaded]; decide +kernel⟩,
    ⟨loaded (List.replicate 95 0x31), by decide +kernel⟩, ⟨appended, by decide +kernel⟩⟩

theorem witness_SlicingFacts :
    ∃ t, appended.Inv ∧ appended.fatal = false ∧ appended.phase = .csumAppended ∧ exec .derive appended = .next t :=
  ⟨_, appended_inv, rfl, rfl, rfl⟩

/-- Two sessions with one phrase: WSEL differs. -/
theorem witness_IndicesDetermineTheEntropy :
    derived.Inv ∧ { derived with wsel := 23 }.Inv ∧ derived.build = { derived with wsel := 23 }.build ∧
      derived.phase = .derived ∧ { derived with wsel := 23 }.phase = .derived ∧
      (∀ i < wordCount derived.build.w, derived.idxAt i = { derived with wsel := 23 }.idxAt i) ∧
      derived.ebuf = { derived with wsel := 23 }.ebuf :=
  ⟨derived_inv, ⟨derived_inv.input, derived_inv.entropy, derived_inv.indices, (fun h => by cases h), derived_inv.memory,
    derived_inv.width, derived_inv.csumFits, derived_inv.csumIs, derived_inv.idxIs⟩, rfl, rfl, rfl, fun _ _ => rfl, rfl⟩

/-- V-S1's entropy from the host and from the RNG: two sources, one EBUF. Then the three inputs of R196's example. -/
def rawZeros : State := loaded (List.replicate 32 0)

def rngZeros : State := { inPhase .collecting with rngReady := [.bytes (List.replicate 32 0)] }

theorem witness_PhraseDependsOnEntropyAlone :
    (∃ t t', rawZeros.Inv ∧ rngZeros.Inv ∧ rawZeros.build = rngZeros.build ∧ exec .acqRaw rawZeros = .next t ∧
      exec .acqRng rngZeros = .next t' ∧ t.phase = .csumAppended ∧ t'.phase = .csumAppended ∧ t.ebuf = t'.ebuf) ∧
    (rawZeros.build.w = .w24 ∧ rawZeros.fatal = false ∧ rawZeros.phase = .collecting ∧ rawZeros.inlen = 32 ∧
      ∀ k < 32, rawZeros.inbufByte k = 0) ∧
    (rngZeros.fatal = false ∧ rngZeros.phase = .collecting ∧
      rngZeros.rngReady = .bytes (List.replicate 32 0) :: []) ∧
    (loaded (List.replicate 95 0x31)).inlen = 95 ∧ ∀ k < 95, (loaded (List.replicate 95 0x31)).inbufByte k = 0x31 := by
  obtain ⟨t, h, ht⟩ := answers_iff (o := exec .acqRaw rawZeros)
    (p := fun t => decide (t.phase = .csumAppended ∧ t.ebuf = List.replicate 256 false)) (by decide +kernel)
  obtain ⟨t', h', ht'⟩ := answers_iff (o := exec .acqRng rngZeros)
    (p := fun t => decide (t.phase = .csumAppended ∧ t.ebuf = List.replicate 256 false)) (by decide +kernel)
  have a := of_decide_eq_true ht
  have b := of_decide_eq_true ht'
  exact ⟨⟨t, t', collecting_inv rfl rfl (by decide) rfl rfl rfl rfl, collecting_inv rfl rfl (by decide) rfl rfl rfl rfl,
    rfl, h, h', a.1, b.1, a.2.trans b.2.symm⟩, by decide +kernel, ⟨rfl, rfl, rfl⟩, by decide +kernel⟩

theorem witness_DiceIndicesAreFolds :
    ∃ s t u : State, s.fatal = false ∧ s.build.w = .w24 ∧ s.phase = .collecting ∧
      exec .acqDice s = .next t ∧ t.phase = .csumAppended ∧ exec .derive t = .next u :=
  ⟨loaded (List.replicate 95 0x36), _, _, rfl, rfl, rfl, rfl, by decide +kernel, rfl⟩

theorem witness_FoldComplementsOnTheDecisionBit :
    (rawGroup 1 1 1 2)[11]? = some true ∧ (rawGroup 6 5 4 3)[11]? = some false := by decide

theorem witness_CoinFlipsAreABijection :
    (∀ k < 2, legalCoin ((fun _ => 0x48) k) = true ∧ legalCoin ((fun _ => 0x68) k) = true) ∧
      ([true, false] : List Bool).length = 2 ∧
      (0 < 2 ∧ isHeads 0x48 ≠ isHeads 0x54) := by decide

/-- A dictionary of 2048 three-letter words. -/
def letters (x : Nat) : List Byte :=
  [BitVec.ofNat 8 (0x61 + x / 676), BitVec.ofNat 8 (0x61 + x / 26 % 26), BitVec.ofNat 8 (0x61 + x % 26)]

/-- The first `n` rows of a dictionary. -/
def rowsOf (f : Nat → List Byte) (n : Nat) : List (Nat × List Byte) := (List.range n).map (fun x => (x, f x))

/-- The reference build with that dictionary and WORD_BYTES = 4. -/
def spelled : Build := { Build.reference with wordBytes := 4, dict := rowsOf letters 2048 }

theorem rowsOf_succ (f : Nat → List Byte) (n : Nat) : rowsOf f (n + 1) = rowsOf f n ++ [(n, f n)] := by
  simp [rowsOf, List.range_succ]

theorem lookup_rowsOf_ge (f : Nat → List Byte) (n x : Nat) (h : n ≤ x) : (rowsOf f n).lookup x = none := by
  induction n with
  | zero => rfl
  | succ n ih =>
    have : (x == n) = false := by simpa using (by omega : x ≠ n)
    rw [rowsOf_succ, List.lookup_append, ih (by omega)]
    simp [List.lookup, this]

theorem lookup_rowsOf (f : Nat → List Byte) (n x : Nat) (h : x < n) : (rowsOf f n).lookup x = some (f x) := by
  induction n with
  | zero => omega
  | succ n ih =>
    rw [rowsOf_succ, List.lookup_append]
    by_cases hx : x < n
    · rw [ih hx]; rfl
    · have : x = n := by omega
      subst this
      rw [lookup_rowsOf_ge f x x le_rfl]
      simp

theorem dictWord_of_rows {b : Build} {f : Nat → List Byte} {n x : Nat} (hb : b.dict = rowsOf f n) (h : x < n) :
    dictWord b x = f x := by
  rw [dictWord, hb, lookup_rowsOf f n x h, Option.getD_some]

theorem dictWord_spelled {x : Nat} (h : x < 2048) : dictWord spelled x = letters x :=
  dictWord_of_rows (f := letters) (n := 2048) (by simp only [spelled]) h

theorem spelled_ok : DictOk spelled := by
  have h1 : ∀ x < 2048, wordOk 4 (letters x) = true := fun x hx => by
    simp only [wordOk, letters, List.length_cons, List.length_nil, List.all_cons, List.all_nil, Bool.and_true,
      Bool.and_eq_true, decide_eq_true_eq, BitVec.le_def, BitVec.toNat_ofNat, BitVec.reduceToNat]
    exact ⟨⟨rfl, rfl⟩, by omega⟩
  have h2 : ∀ x < 2048, ((letters x).map (fun c => c.toNat - 0x61)).foldl (fun a c => 26 * a + c) 0 = x :=
    fun x hx => by
      simp only [letters, List.map_cons, List.map_nil, List.foldl_cons, List.foldl_nil, BitVec.toNat_ofNat]
      omega
  refine ⟨fun x hx => ?_, fun x hx y hy h => ?_⟩
  · rw [dictWord_spelled hx]; exact h1 x hx
  · rw [dictWord_spelled hx, dictWord_spelled hy] at h
    rw [← h2 x hx, h, h2 y hy]

/-- Both sides of the first two clauses, and the third at WORD_BYTES = 4n. -/
theorem witness_WordWindowShowsTheSelectedWord :
    (∀ n < 4, ∃ s : State, s.busy = false ∧ s.schedule = .read (s.build.base + (0x020 + 4 * n)) 4 :: [] ∧
      s.phase = .derived ∧ s.wsel.toNat < wordCount s.build.w) ∧
    (∃ s : State, s.busy = false ∧ s.schedule = .read (s.build.base + (0x020 + 4 * 0)) 4 :: [] ∧
      wordCount s.build.w ≤ s.wsel.toNat) ∧
    (∃ s : State, s.busy = false ∧ s.schedule = .read (s.build.base + (0x020 + 4 * 3)) 4 :: [] ∧ s.phase ≠ .derived) ∧
    (∃ s : State, s.busy = false ∧ s.schedule = .read (s.build.base + (0x020 + 4 * 1)) 4 :: [] ∧ s.phase = .derived ∧
      DictOk s.build ∧ s.build.wordBytes ≤ 4 * 1) :=
  ⟨fun n _ => ⟨{ next derived [.read (0 + (0x020 + 4 * n)) 4] with wsel := 23 }, rfl, rfl, rfl,
      (by decide : (23 : BitVec 5).toNat < wordCount .w24)⟩,
    ⟨{ next derived [.read 0x020 4] with wsel := 24 }, rfl, rfl, by decide⟩,
    ⟨next State.reset [.read 0x02C 4], rfl, rfl, by decide⟩,
    ⟨{ next derived [.read 0x024 4] with build := spelled }, rfl, rfl, rfl, spelled_ok, by decide⟩⟩

theorem witness_PhraseReadableOnlyInDerived :
    ∀ off ∈ [0x100, 0x15C, 0x020, 0x02C],
      (next appended [.read off 4]).Inv ∧ (next appended [.read off 4]).phase ≠ .derived ∧
      (next appended [.read off 4]).busy = false ∧ off % 4 = 0 ∧
      ((0x100 ≤ off ∧ off < 0x160) ∨ (0x020 ≤ off ∧ off < 0x030)) ∧
      (next appended [.read off 4]).schedule = .read ((next appended [.read off 4]).build.base + off) 4 :: [] := by
  intro off ho
  refine ⟨appended_inv.same (by simp [State.SameBlock, next]), by decide +revert, rfl, ?_, ?_, ?_⟩ <;> revert off <;> decide

theorem witness_ChecksumIsTheLeadingDigestBits :
    Build.reference.hash = .sha256 ∧ Build.reference.w = .w24 ∧ reset12.build.hash = .sha256 ∧ reset12.build.w = .w12 :=
  ⟨rfl, rfl, rfl, rfl⟩

theorem witness_PaddingFillsWholeBlocks : (List.replicate 32 (0 : Byte)).length ≤ 32 := by decide

theorem witness_StepRunsTheDecodedCommand :
    ∃ (s : State) (c : Word) (i : Instr), s.nextEvent = .completion ∧ s.pending = some c ∧ s.fatal = false ∧
      s.build.allowSpuriousFatal = false ∧ decode s.build.dicePresent c = .legal i :=
  ⟨{ State.reset with pending := some 0x13 }, 0x13, .acqDice, rfl, rfl, rfl, rfl, by decide⟩

theorem witness_IllegalWordsOnlyReport :
    (∀ c ∈ [(0x00000113 : Word), 0x80000001, 0x00000000, 0x000000FF], ∃ s : State,
      s.nextEvent = .completion ∧ s.pending = some c ∧ s.fatal = false ∧ s.build.allowSpuriousFatal = false ∧
      (c.extractLsb 31 8 ≠ 0 ∨ c.extractLsb 7 0 ∉ [0x01, 0x02, 0x10, 0x11, 0x12, 0x13, 0x20, 0x30])) ∧
    ∃ s : State, s.nextEvent = .completion ∧ s.pending = some 0x00000013 ∧ s.fatal = false ∧
      s.build.allowSpuriousFatal = false ∧ s.build.w ≠ .w24 := by
  refine ⟨fun c hc => ⟨{ State.reset with pending := some c }, rfl, rfl, rfl, rfl, ?_⟩,
    { reset12 with pending := some 0x13 }, rfl, rfl, rfl, rfl, by decide⟩
  simp only [List.mem_cons, List.not_mem_nil, or_false] at hc
  rcases hc with rfl | rfl | rfl | rfl <;> decide

theorem witness_CompletionEmptiesPending : (State.reset.withFetchWord 32 0x1).nextEvent = .completion := by decide

/-- A build with ALLOW_SPURIOUS_FATAL. -/
def spurious : State :=
  { inPhase .collecting with build := { Build.reference with allowSpuriousFatal := true } }

theorem witness_SelfCheckFailureReplacesTheRule :
    (∃ (s : State) (c : Word) (i : Instr), s.nextEvent = .completion ∧ s.pending = some c ∧ s.fatal = false ∧
      s.build.allowSpuriousFatal = true ∧ decode s.build.dicePresent c = .legal i) ∧
    (∃ (s : State) (c : Word) (w : Illegal), s.nextEvent = .completion ∧ s.pending = some c ∧ s.fatal = false ∧
      s.build.allowSpuriousFatal = true ∧ decode s.build.dicePresent c = .illegal w) ∧
    ∃ s t : State, s.build.allowSpuriousFatal = false ∧ step s = .next t ∧ t.err = .fatalInv :=
  ⟨⟨{ spurious with pending := some 0x11 }, 0x11, .acqRaw, rfl, rfl, rfl, rfl, by decide⟩,
    ⟨{ spurious with pending := some 0x0 }, 0x0, .unknownOp, rfl, rfl, rfl, rfl, by decide⟩,
    { locked with err := .fatalInv }, _, rfl, rfl, rfl⟩

theorem witness_RecoverableErrorsChangeOnlyTheReport :
    (∃ t, exec .acqRaw (inPhase .collecting) = .next t ∧ t.err = .length) ∧
    (∃ t, exec .acqDice (loaded (List.replicate 95 0x30)) = .next t ∧ t.err = .alphabet) ∧
    (∃ t, exec .acqDice reset12 = .next t ∧ t.err = .illegalCmd) ∧
    (∃ t, exec .derive State.reset = .next t ∧ t.err = .phase) := by
  refine ⟨⟨_, rfl, ?_⟩, ⟨_, rfl, ?_⟩, ⟨_, rfl, ?_⟩, ⟨_, rfl, ?_⟩⟩ <;> decide +kernel

/-- Every command, and the two premises on its result. -/
theorem witness_CommandsWriteOnlyWhatTheTableLists :
    (∀ i : Instr, ∃ t, exec i State.reset = .next t) ∧
      ∃ t, exec .acqRng { inPhase .collecting with rngReady := [.bytes counting] } = .next t ∧ t.fatal = false :=
  ⟨fun i => by cases i <;> exact ⟨_, rfl⟩, _, rfl, by decide +kernel⟩

/-- Both clauses' premises, and a state for each branch: valid input, invalid input, an exhausted RNG, a wrong phase. -/
theorem witness_PhasesMoveAsTheTableSays :
    (∃ (s : State) (c : Word) (w : Illegal), s.fatal = false ∧ decode s.build.dicePresent c = .illegal w) ∧
    (∀ i : Instr, State.reset.fatal = false ∧ i.wf State.reset.build = true) ∧
    (rawZeros.inputValid .acqRaw ∧ ∃ t, exec .acqRaw rawZeros = .next t ∧ t.err = .ok) ∧
    (¬(inPhase .collecting).inputValid .acqRaw ∧ ∃ t, exec .acqRaw (inPhase .collecting) = .next t ∧ t.err = .length) ∧
    (∃ s t, s.rngAnswer = none ∧ exec .acqRng s = .next t ∧ t.err = .fatalRng) ∧
    ∃ t, exec .derive State.reset = .next t ∧ t.err = .phase := by
  have run : ∀ {i s c}, answers (exec i s) (fun t => decide (t.err = c)) = true → ∃ t, exec i s = .next t ∧ t.err = c :=
    fun h => by obtain ⟨t, h, e⟩ := answers_iff h; exact ⟨t, h, of_decide_eq_true e⟩
  obtain ⟨t, ht, et⟩ := run (i := .acqRng) (s := { inPhase .collecting with rngReady := [.exhausted] })
    (c := .fatalRng) (by decide +kernel)
  exact ⟨⟨State.reset, 0x3, .unknownOp, rfl, by decide⟩, fun i => by cases i <;> exact ⟨rfl, rfl⟩,
    ⟨by unfold State.inputValid; decide +kernel, run (by decide +kernel)⟩,
    ⟨by unfold State.inputValid; decide +kernel, run (by decide +kernel)⟩,
    ⟨{ inPhase .collecting with rngReady := [.exhausted] }, t, rfl, ht, et⟩, run (by decide +kernel)⟩

theorem witness_AccessesNeverWriteTheStatusFields :
    (∃ t, step (next State.reset [.write 0x008 4 1]) = .next t) ∧
      (next State.reset [.write 0x008 4 1]).nextEvent ≠ .completion ∧
      (next State.reset [.write 0x008 4 1]).nextEvent ≠ .reset :=
  ⟨answers_next (by decide), by decide, by decide⟩

theorem witness_EntropyWrittenOnlyByAcquisition :
    ∃ t, step (appended.withFetchWord 32 0x2) = .next t ∧ t.csum ≠ (appended.withFetchWord 32 0x2).csum := by
  obtain ⟨t, h, ht⟩ := answers_iff (o := step (appended.withFetchWord 32 0x2)) (p := fun t => decide (t.csum ≠ 0x66))
    (by decide)
  exact ⟨t, h, of_decide_eq_true ht⟩

theorem witness_IndicesWrittenOnlyByDerive :
    ∃ t, step (appended.withFetchWord 32 0x20) = .next t ∧ t.idx ≠ (appended.withFetchWord 32 0x20).idx := by
  obtain ⟨t, h, ht⟩ := answers_iff (o := step (appended.withFetchWord 32 0x20))
    (p := fun t => decide (t.idx ≠ (appended.withFetchWord 32 0x20).idx)) (by decide +kernel)
  exact ⟨t, h, by simpa using ht⟩

/-- ACQ_RNG pending at an RNG that will answer Exhausted. -/
def asking : State := { inPhase .collecting with rngReady := [.exhausted], pending := some 0x10 }

theorem witness_OnlyAcqRngAsksTheRng :
    (∃ t, step asking = .next t ∧ t.rngRequests ≠ asking.rngRequests) ∧
      asking.nextEvent = .completion ∧ asking.pending = some 0x10 ∧ asking.fatal = false ∧
      asking.phase = .collecting ∧ asking.spuriousFatal = false ∧
      decode asking.build.dicePresent 0x10 = .legal .acqRng := by
  obtain ⟨t, h, ht⟩ := answers_iff (o := step asking) (p := fun t => decide (t.rngRequests ≠ 0)) (by decide)
  exact ⟨⟨t, h, of_decide_eq_true ht⟩, rfl, rfl, rfl, rfl, by decide, by decide⟩

theorem witness_NoStepChangesTheBuild : ∃ t, step (next State.reset [.reset]) = .next t := ⟨_, rfl⟩

/-- The ends of each clause's range. -/
theorem witness_RegisterWrites :
    (∀ off ∈ [0x008, 0x014, 0x01C, 0x000, 0x3FC, 0x500, 0xFFC], ∃ s : State, s.fatal = false ∧ s.busy = false ∧
      s.schedule = .write (s.build.base + off) 4 7 :: [] ∧ s.phase = .collecting) ∧
    (∃ s : State, s.fatal = false ∧ s.busy = false ∧ s.schedule = .write (s.build.base + 0x014) 4 7 :: [] ∧
      s.phase ≠ .collecting) ∧
    (∀ off ∈ [0x000, 0x3FC, 0x500, 0xFFC],
      off < 0x1000 ∧ off % 4 = 0 ∧ off ∉ [0x008, 0x014, 0x01C] ∧ ¬(0x400 ≤ off ∧ off < 0x500)) :=
  ⟨fun off _ => ⟨next (inPhase .collecting) [.write (0 + off) 4 7], rfl, rfl, rfl, rfl⟩,
    ⟨next State.reset [.write 0x014 4 7], rfl, rfl, rfl, by decide⟩, by decide⟩

theorem witness_InbufWritesTakeByteLanes :
    (∀ a ∈ [(0x400, 4), (0x4FC, 4), (0x4FE, 2), (0x4FF, 1)],
      0x400 ≤ a.1 ∧ a.1 + a.2 ≤ 0x500 ∧ a.2 ∈ [1, 2, 4] ∧ a.1 % a.2 = 0) ∧
    (∃ s : State, s.busy = false ∧ s.schedule = .write (s.build.base + 0x4FC) 4 7 :: [] ∧ s.fatal = false ∧
      s.phase = .collecting ∧ Memory.wf s.inbuf) ∧
    (∃ s : State, s.busy = false ∧ s.schedule = .write (s.build.base + 0x4FF) 1 7 :: [] ∧ s.fatal = true) ∧
    (∃ s : State, s.busy = false ∧ s.schedule = .write (s.build.base + 0x4FF) 1 7 :: [] ∧ s.phase ≠ .collecting) ∧
    (∃ s : State, s.busy = true ∧ s.schedule = .write (s.build.base + 0x4FF) 1 7 :: []) ∧
    (∃ s : State, s.busy = false ∧ s.schedule = .read (s.build.base + 0x4FF) 1 :: []) :=
  ⟨by decide, ⟨next (loaded counting) [.write 0x4FC 4 7], by decide⟩, ⟨next locked [.write 0x4FF 1 7], rfl, rfl, rfl⟩,
    ⟨next State.reset [.write 0x4FF 1 7], rfl, rfl, by decide⟩, ⟨next pendingOpen [.write 0x4FF 1 7], rfl, rfl⟩,
    ⟨next derived [.read 0x4FF 1], rfl, rfl⟩⟩

theorem witness_RegisterReads :
    ∀ off ∈ [0x000, 0x004, 0x008, 0x00C, 0x010, 0x014, 0x018, 0x01C, 0x100, 0x15C, 0x030, 0x0FC, 0x160, 0xFFC],
      off < 0x1000 ∧ off % 4 = 0 ∧ (next derived [.read off 4]).busy = false ∧
      (next derived [.read off 4]).schedule = .read ((next derived [.read off 4]).build.base + off) 4 :: [] := by
  decide

theorem witness_ReadsChangeNothing :
    (next derived [.read 0x15C 4, .read 0x15C 4]).busy = false ∧
      (next derived [.read 0x15C 4, .read 0x15C 4]).schedule = .read 0x15C 4 :: .read 0x15C 4 :: [] ∧
      ∃ t u : State, step (next derived [.read 0x15C 4, .read 0x15C 4]) = .next t ∧ step t = .next u := by
  refine ⟨rfl, rfl, ?_⟩
  have h1 := step_read (s := next derived [.read 0x15C 4, .read 0x15C 4]) (rest := [.read 0x15C 4]) (off := 0x15C)
    (n := 4) rfl (by decide) (.inl rfl)
  rw [statusDrawn_of_not_busy rfl] at h1
  exact ⟨_, _, h1, step_read (rest := []) (off := 0x15C) (n := 4) rfl (by decide) (.inl rfl)⟩

theorem witness_StagedInputAndEntropyCannotBeRead :
    (next derived [.read 0x15C 4]).schedule = .read 0x15C 4 :: [] ∧
      ∃ t, step (next derived [.read 0x15C 4]) = .next t :=
  ⟨rfl, answers_next (by decide +kernel)⟩

/-- Refused: 2 bytes at 0x00C, 4 bytes at 0x401, 2 bytes at 0x4FF. Admitted: 2 bytes at 0x4FE, 4 bytes at 0xFFC. -/
theorem witness_OtherAccessesAreNotAdmitted :
    (∀ a ∈ [(0x00C, 2), (0x401, 4), (0x4FF, 2), (0xFFD, 4)], a.1 < 0x1000 ∧ 1 ≤ a.2 ∧
      ¬((a.2 = 4 ∧ a.1 % 4 = 0) ∨ (0x400 ≤ a.1 ∧ a.1 + a.2 ≤ 0x500 ∧ (a.2 = 1 ∨ a.2 = 2) ∧ a.1 % a.2 = 0))) ∧
    (∀ a ∈ [(0x4FE, 2), (0x4FF, 1), (0xFFC, 4)], a.1 < 0x1000 ∧ 1 ≤ a.2 ∧
      ((a.2 = 4 ∧ a.1 % 4 = 0) ∨ (0x400 ≤ a.1 ∧ a.1 + a.2 ≤ 0x500 ∧ (a.2 = 1 ∨ a.2 = 2) ∧ a.1 % a.2 = 0))) ∧
    ∀ off n, (next State.reset [.read (0 + off) n]).schedule = .read (State.reset.build.base + off) n :: [] ∧
      (next State.reset [.read (0 + off) n]).busy = false :=
  ⟨by decide, by decide, fun _ _ => ⟨rfl, rfl⟩⟩

theorem witness_AccessesWhileBusyAreRefused :
    (pendingOpen.busy = true) ∧
    (∃ s : State, s.busy = true ∧ s.schedule = .read (s.build.base + 0x010) 4 :: []) ∧
    (∃ s : State, s.busy = true ∧ s.schedule = .write (s.build.base + 0x4FF) 1 7 :: []) ∧
    (∃ s : State, s.busy = true ∧ s.schedule = .write (s.build.base + 0x00C) 4 7 :: []) ∧
    (∃ s : State, s.busy = true ∧ s.schedule = .read (s.build.base + 0x00C) 4 :: []) :=
  ⟨rfl, ⟨next pendingOpen [.read 0x010 4], rfl, rfl⟩, ⟨next pendingOpen [.write 0x4FF 1 7], rfl, rfl⟩,
    ⟨next pendingOpen [.write 0x00C 4 7], rfl, rfl⟩, ⟨next pendingOpen [.read 0x00C 4], rfl, rfl⟩⟩

theorem witness_StatusWhileBusyIsFree :
    (∃ s : State, s.busy = true ∧ s.schedule = .read (s.build.base + 0x00C) 4 :: []) ∧
      ∃ s : State, s.busy = false ∧ s.schedule = .read (s.build.base + 0x00C) 4 :: [] :=
  ⟨⟨next pendingOpen [.read 0x00C 4], rfl, rfl⟩, next locked [.read 0x00C 4], rfl, rfl⟩

theorem witness_FatalStateIsLockedUntilReset :
    (∃ t, locked.Inv ∧ locked.fatal = true ∧ locked.nextEvent ≠ .reset ∧ step locked = .next t) ∧
    ∃ s : State, s.Inv ∧ s.fatal = true ∧ s.schedule = .write (s.build.base + 0x008) 4 2 :: [] :=
  ⟨⟨_, locked_inv, rfl, by decide, rfl⟩,
    ⟨next locked [.write 0x008 4 2], locked_inv.same (by simp [State.SameBlock, next]), rfl, rfl⟩⟩

theorem witness_ResetRestoresEveryRegister : (next derived [.reset]).schedule = .reset :: [] := rfl

theorem witness_ResetValues : State.reset.CleanEntry ∧ reset12.CleanEntry :=
  ⟨rfl, by unfold State.CleanEntry; decide +kernel⟩

theorem witness_CleanEntryIsIdleAndUnlocked : State.reset.CleanEntry := rfl

theorem witness_InvariantsAreKept : ∃ t, State.reset.Inv ∧ step State.reset = .next t := ⟨_, reset_inv, rfl⟩

theorem witness_ReportsStaySound : ∃ t, State.reset.ReportInv ∧ step State.reset = .next t :=
  ⟨_, by constructor <;> decide, rfl⟩

theorem witness_SessionsAreIndependent :
    ∃ t t' : State, State.reset.Inv ∧ (inPhase .done).Inv ∧ State.reset.build = (inPhase .done).build ∧
      State.reset.fatal = false ∧ (inPhase .done).fatal = false ∧ State.reset.phase = .idle ∧
      (inPhase .done).phase = .done ∧ exec .openSession State.reset = .next t ∧
      exec .openSession (inPhase .done) = .next t' :=
  ⟨_, _, reset_inv, done_inv, rfl, rfl, rfl, rfl, rfl, rfl, rfl⟩

theorem witness_CfgReportsTheBuild : Build.reference.w = .w24 ∧ reset12.build.w = .w12 := ⟨rfl, rfl⟩

end Sys2Proof.Tests
end

section
/-! The reset state of a build, field by field (10_state.md R44). CleanEntry is an equation between states, so each
field's value is that equation read at the field, where `resetFrom` holds a literal. -/

namespace Sys2Proof.Machine

/-! ### The fields of a reset state -/

section
variable {s : State} (h : s.CleanEntry)
include h

theorem State.CleanEntry.phase_eq : s.phase = .idle := congrArg State.phase h
theorem State.CleanEntry.err_eq : s.err = .ok := congrArg State.err h
theorem State.CleanEntry.fatal_eq : s.fatal = false := congrArg State.fatal h
theorem State.CleanEntry.errinfo_eq : s.errinfo = 0 := congrArg State.errinfo h
theorem State.CleanEntry.inlen_eq : s.inlen = 0 := congrArg State.inlen h
theorem State.CleanEntry.inbuf_eq : s.inbuf = [] := congrArg State.inbuf h
theorem State.CleanEntry.ebuf_eq : s.ebuf = zeroEntropy s.build := congrArg State.ebuf h
theorem State.CleanEntry.csum_eq : s.csum = 0 := congrArg State.csum h
theorem State.CleanEntry.idx_eq : s.idx = zeroIdx := congrArg State.idx h
theorem State.CleanEntry.wsel_eq : s.wsel = 0 := congrArg State.wsel h
theorem State.CleanEntry.pending_eq : s.pending = none := congrArg State.pending h

/-! ### The values derived from the fields -/

theorem State.CleanEntry.phaseCode_eq : phaseCode s.phase = 0 := by rw [h.phase_eq]; rfl

theorem State.CleanEntry.errCode_eq : errCode s.err = 0 := by rw [h.err_eq]; rfl

theorem State.CleanEntry.busy_eq : s.busy = false := by simp [State.busy, h.pending_eq]

theorem State.CleanEntry.inbufByte_eq (k : Nat) : s.inbufByte k = 0 := by simp [State.inbufByte, h.inbuf_eq]

theorem State.CleanEntry.idxAt_eq (i : Nat) : s.idxAt i = 0 := idxAt_of_zero h.idx_eq i

end

theorem State.reset_cleanEntry : State.reset.CleanEntry := rfl

/-- Settles O46: CleanEntry read field by field; ID and CFG are constants of the build (10_state.md R44). -/
theorem resetValues : Obligations.ResetValues := by
  unfold Obligations.ResetValues
  refine ⟨State.reset_cleanEntry, fun s h => ?_⟩
  have id_const : readReg s .id = 0x42390001 := rfl
  have cfg_build : readReg s .cfg = cfgWord s.build := rfl
  exact ⟨id_const, cfg_build, h.phaseCode_eq, h.busy_eq, h.errCode_eq, h.fatal_eq, h.errinfo_eq, h.inlen_eq,
    h.inbufByte_eq, h.ebuf_eq, h.csum_eq, h.idxAt_eq, h.wsel_eq, h.pending_eq⟩

end Sys2Proof.Machine
end

section
/-! Host accesses to the window, by what becomes of them: not admitted, refused while busy, or a next state
(20_memory.md R62, R64; 70_reset_and_hazards.md R280). -/

namespace Sys2Proof.Machine

variable {s t : State} {e : Event} {rest : List Event} {off n : Nat} {v : Word}

/-- The scheduled event is the one that runs (log 5). -/
theorem step_eq_runEvent (hs : s.schedule = e :: rest) : step s = runEvent (s.withSchedule rest) e := by
  unfold step advance
  rw [hs]

/-! ### The two ways an access gets no step -/

theorem onWindow_not_admitted (busyOk : Bool) (hoff : off < 0x1000) (ha : admittedAt off n = false) :
    onWindow s (s.build.base + off) n busyOk t = .fault .notAdmitted := by
  have not_admitted : admitted s.build (s.build.base + off) n = false := by simp [admitted, ha]
  simp [onWindow, touchesWindow_of_offset hoff, not_admitted]

theorem onWindow_busy (ha : admittedAt off n = true) (hb : s.busy = true) :
    onWindow s (s.build.base + off) n false t = .refused .busyHazard := by
  obtain ⟨htouch, hadm⟩ := admitted_of_offset (b := s.build) ha
  simp [onWindow, htouch, hadm, hb]

theorem step_write_busy (hs : s.schedule = .write (s.build.base + off) n v :: rest)
    (ha : admittedAt off n = true) (hb : s.busy = true) : step s = .refused .busyHazard :=
  (step_eq_runEvent hs).trans (onWindow_busy (s := s.withSchedule rest) ha hb)

theorem step_access_not_admitted (hs : s.schedule = e :: rest)
    (he : e = .read (s.build.base + off) n ∨ ∃ v, e = .write (s.build.base + off) n v) (hoff : off < 0x1000)
    (ha : admittedAt off n = false) : step s = .fault .notAdmitted := by
  rw [step_eq_runEvent hs]
  rcases he with rfl | ⟨v, rfl⟩
  · exact onWindow_not_admitted (s := s.withSchedule rest) _ hoff ha
  · exact onWindow_not_admitted (s := s.withSchedule rest) _ hoff ha

theorem step_access_next (hs : s.schedule = e :: rest)
    (he : e = .read (s.build.base + off) n ∨ ∃ v, e = .write (s.build.base + off) n v)
    (ha : admittedAt off n = true) (hb : s.busy = false) : ∃ t, step s = .next t := by
  rcases he with rfl | ⟨v, rfl⟩
  · exact ⟨_, step_read hs ha (.inl hb)⟩
  · exact ⟨_, step_write hs ha hb⟩

/-- Settles O41: the listed accesses are the admitted ones (`admittedAt_iff`), which alone have a next state. -/
theorem otherAccessesAreNotAdmitted : Obligations.OtherAccessesAreNotAdmitted := by
  unfold Obligations.OtherAccessesAreNotAdmitted
  intro s e rest off n hs hoff _ he
  rw [← admittedAt_iff hoff, Bool.not_eq_true]
  exact ⟨step_access_not_admitted hs he hoff, step_access_next hs he⟩

/-! ### INBUF -/

theorem admittedAt_of_inbuf (hlo : 0x400 ≤ off) (hhi : off + n ≤ 0x500) (hn : n ∈ [1, 2, 4])
    (hal : off % n = 0) : admittedAt off n = true := by
  have width : n = 1 ∨ n = 2 ∨ n = 4 := by simpa using hn
  rw [admittedAt_iff (by omega)]
  rcases width with rfl | rfl | rfl
  · exact .inr ⟨hlo, hhi, .inl rfl, hal⟩
  · exact .inr ⟨hlo, hhi, .inr rfl, hal⟩
  · exact .inl ⟨rfl, hal⟩

theorem writeReg_inbuf_of_collecting (h : s.phase = .collecting) (k : Nat) :
    writeReg s (.inbuf k) n v = s.storeInput k n v := if_pos h

theorem writeReg_inbuf_of_not_collecting (h : s.phase ≠ .collecting) (k : Nat) :
    writeReg s (.inbuf k) n v = s := if_neg h

section
variable (hin : 0x400 ≤ off ∧ off < 0x500) (ha : admittedAt off n = true) (hb : s.busy = false)
include hin ha hb

theorem step_inbuf_write (hs : s.schedule = .write (s.build.base + off) n v :: rest) (hf : s.fatal = false)
    (hp : s.phase = .collecting) :
    step s = .next ((s.withSchedule rest).storeInput (off - 0x400) n v) := by
  rw [step_write hs ha hb, if_neg (by simp [hf]), regAt_inbuf hin,
    writeReg_inbuf_of_collecting (s := s.withSchedule rest) hp]

theorem step_inbuf_write_ignored (hs : s.schedule = .write (s.build.base + off) n v :: rest)
    (h : s.fatal = true ∨ s.phase ≠ .collecting) : step s = .next (s.withSchedule rest) := by
  rw [step_write hs ha hb, regAt_inbuf hin]
  rcases h with hf | hp
  · rw [if_pos hf]
  · rw [writeReg_inbuf_of_not_collecting (s := s.withSchedule rest) hp, ite_self]

theorem step_inbuf_read (hs : s.schedule = .read (s.build.base + off) n :: rest) :
    step s = .next ((s.withSchedule rest).logRead 0) := by
  rw [step_read hs ha (.inl hb), statusDrawn_of_not_busy (s := s.withSchedule rest) hb, regAt_inbuf hin]
  rfl

end

/-- Settles O37: an access to INBUF is one `storeInput`, nothing, a refusal or a read of 0, and the store's lanes are
`Memory.read_store`. -/
theorem inbufWritesTakeByteLanes : Obligations.InbufWritesTakeByteLanes := by
  unfold Obligations.InbufWritesTakeByteLanes
  intro s rest off n v hlo hhi hn hal
  have ha := admittedAt_of_inbuf hlo hhi hn hal
  have nonempty : 1 ≤ n := (admittedAt_lt ha).2
  have hin : 0x400 ≤ off ∧ off < 0x500 := by omega
  have fits : off - 0x400 + n ≤ 256 := by omega
  refine ⟨fun hs hb hf hp hwf => ?_, fun hs hb h => step_inbuf_write_ignored hin ha hb hs h,
    fun hs hb => step_write_busy hs ha hb, fun hs hb => step_inbuf_read hin ha hb hs⟩
  exact ⟨Memory.store s.inbuf (off - 0x400) n v, step_inbuf_write hin ha hb hs hf hp,
    Memory.wf_store hwf _ _ _ fits, Memory.read_store hwf _ _ _ fits⟩

end Sys2Proof.Machine
end

section
/-! Decoding is total: a word is the encoding of a command that the build has, or it is illegal (30_encoding.md R92 to
R94). -/

namespace Sys2Proof

variable {dice : Bool} {c : Word} {i : Instr}

/-! ### The words that decode -/

theorem decodeOp_eq_legal {op : BitVec 8} (h : decodeOp dice op = .legal i) :
    op = (encode i).setWidth 8 ∧ (i = .acqDice → dice = true) := by
  unfold decodeOp at h
  repeat' split at h
  all_goals cases h
  all_goals exact ⟨‹_›, by simp [*]⟩

theorem decode_of_reservedBits_ne (h : c.extractLsb 31 8 ≠ 0) : decode dice c = .illegal .reservedBits := if_pos h

theorem decode_of_reservedBits_eq (h : c.extractLsb 31 8 = 0) :
    decode dice c = decodeOp dice (c.extractLsb 7 0) := if_neg (not_not_intro h)

/-- The reserved field and OP are all of the word (30_encoding.md R90). -/
theorem append_fields (c : Word) : c.extractLsb 31 8 ++ c.extractLsb 7 0 = c :=
  (BitVec.extractLsb'_append_extractLsb'_eq_extractLsb' (start₂ := 8) (len₂ := 24) (len₁ := 8) rfl).trans
    BitVec.extractLsb'_eq_self

theorem decode_encode (h : i = .acqDice → dice = true) : decode dice (encode i) = .legal i := by
  cases i
  case acqDice => rw [h rfl]; rfl
  all_goals rfl

theorem eq_encode_of_decode (h : decode dice c = .legal i) : c = encode i ∧ (i = .acqDice → dice = true) := by
  by_cases reserved : c.extractLsb 31 8 = 0
  · rw [decode_of_reservedBits_eq reserved] at h
    obtain ⟨op, hdice⟩ := decodeOp_eq_legal h
    refine ⟨?_, hdice⟩
    rw [← append_fields c, reserved, op]
    cases i <;> rfl
  · rw [decode_of_reservedBits_ne reserved] at h
    cases h

theorem decode_eq_legal_iff : decode dice c = .legal i ↔ c = encode i ∧ (i = .acqDice → dice = true) := by
  refine ⟨eq_encode_of_decode, ?_⟩
  rintro ⟨rfl, hdice⟩
  exact decode_encode hdice

/-- Settles O21: a word decodes to a command exactly where it is the command's encoding (`decode_eq_legal_iff`), and
the table lists the encodings. -/
theorem exactlyTheEightWordsDecode : Obligations.ExactlyTheEightWordsDecode := by
  unfold Obligations.ExactlyTheEightWordsDecode
  intro dice c i
  rw [decode_eq_legal_iff]
  refine and_congr_left' ?_
  cases i <;> simp [encode]

/-! ### The words that do not -/

theorem encode_reservedBits (i : Instr) : (encode i).extractLsb 31 8 = 0 := by cases i <;> rfl

theorem encode_op_mem (i : Instr) :
    (encode i).extractLsb 7 0 ∈ [0x01, 0x02, 0x10, 0x11, 0x12, 0x13, 0x20, 0x30] := by cases i <;> decide

theorem eq_acqDice_of_encode (h : encode i = 0x00000013) : i = .acqDice := by
  revert h; cases i <;> decide

/-- The three kinds of illegal word (30_encoding.md R94). -/
theorem exists_decode_eq_illegal
    (h : c.extractLsb 31 8 ≠ 0 ∨ c.extractLsb 7 0 ∉ [0x01, 0x02, 0x10, 0x11, 0x12, 0x13, 0x20, 0x30] ∨
      (c = 0x00000013 ∧ dice = false)) : ∃ why, decode dice c = .illegal why := by
  cases hd : decode dice c with
  | illegal why => exact ⟨why, rfl⟩
  | legal i =>
    obtain ⟨rfl, hdice⟩ := decode_eq_legal_iff.mp hd
    rcases h with reserved | op | ⟨word, nodice⟩
    · exact absurd (encode_reservedBits i) reserved
    · exact absurd (encode_op_mem i) op
    · simp [hdice (eq_acqDice_of_encode word)] at nodice

end Sys2Proof

namespace Sys2Proof.Machine

variable {s : State} {c : Word}

/-! ### The completion of an illegal word -/

theorem complete_eq_runCommand (hp : s.pending = some c) (hf : s.fatal = false)
    (ha : s.build.allowSpuriousFatal = false) : complete s = finishCompletion (runCommand s c) := by
  simp [complete, hp, hf, State.spuriousFatal_of_not_allowed ha, State.selfChecked_of_not_allowed ha]

theorem runCommand_of_illegal {why : Illegal} (h : decode s.build.dicePresent c = .illegal why) :
    runCommand s c = .next (s.illegalCommand c) := by
  unfold runCommand
  rw [h]

theorem complete_of_illegal {why : Illegal} (hp : s.pending = some c) (hf : s.fatal = false)
    (ha : s.build.allowSpuriousFatal = false) (h : decode s.build.dicePresent c = .illegal why) :
    complete s = .next (s.illegalCommand c).clearPending := by
  rw [complete_eq_runCommand hp hf ha, runCommand_of_illegal h]
  rfl

theorem State.illegalCommand_eq (s : State) (c : Word) :
    s.illegalCommand c = { s with err := .illegalCmd, errinfo := c.extractLsb 15 0 } := by
  have low_half : BitVec.ofNat 16 (c.extractLsb 15 0).toNat = c.extractLsb 15 0 := by
    rw [BitVec.ofNat_toNat, BitVec.setWidth_eq]
  rw [State.illegalCommand, State.raiseErr, low_half]

theorem dicePresent_eq_false {b : Build} (h : b.w ≠ .w24) : b.dicePresent = false := decide_eq_false h

/-- Settles O25: no word of the three kinds decodes (`exists_decode_eq_illegal`), so its completion is
`State.illegalCommand` and PENDING cleared. -/
theorem illegalWordsOnlyReport : Obligations.IllegalWordsOnlyReport := by
  unfold Obligations.IllegalWordsOnlyReport
  intro s c he hp hf ha hc
  obtain ⟨why, illegal⟩ : ∃ why, decode s.build.dicePresent c = .illegal why :=
    exists_decode_eq_illegal (hc.imp_right (.imp_right (.imp_right dicePresent_eq_false)))
  rw [step_completion he, complete_of_illegal (s := s.withSchedule s.schedule.tail) hp hf ha illegal,
    State.illegalCommand_eq]
  rfl

end Sys2Proof.Machine
end

section
/-! The acquisition commands, outcome by outcome: ACQ_RNG over the oracle's answer, the host-input commands over
Validate's, and the encoders position by position (40_acquisition.md R113 to R117, 41_dice_fold.md R145). -/

namespace Sys2Proof.Machine

variable {s : State}

/-! ### ACQ_RNG -/

theorem exec_acqRng_phaseError (hf : s.fatal = false) (hp : s.phase ≠ .collecting) :
    exec .acqRng s = .next { s with err := .phase, errinfo := BitVec.ofNat 16 (phaseCode s.phase) } :=
  exec_acqRng_wrongPhase hf hp

theorem exec_acqRng_commits {b : List Byte} (hf : s.fatal = false) (hp : s.phase = .collecting)
    (ha : s.rngAnswer = some b) :
    exec .acqRng s =
      .next { s with rngReady := s.rngReady.tail, rngRequests := s.rngRequests + 1, ebuf := bitsOf b,
                     csum := BitVec.ofNat 8 (checksum s.build (bitsOf b)), inbuf := [], inlen := 0,
                     phase := .csumAppended, err := .ok, errinfo := 0 } :=
  exec_acqRng_bytes hf hp ha

theorem exec_acqRng_locks (hf : s.fatal = false) (hp : s.phase = .collecting) (ha : s.rngAnswer = none) :
    exec .acqRng s =
      .next { s with rngReady := s.rngReady.tail, rngRequests := s.rngRequests + 1, fatal := true, inbuf := [],
                     inlen := 0, ebuf := List.replicate (entBits s.build.w) false, csum := 0,
                     idx := Vector.replicate 24 0, wsel := 0, phase := .idle, err := .fatalRng, errinfo := 0 } :=
  exec_acqRng_exhausted hf hp ha

/-- An offered answer of the requested length leaves no byte free (20_memory.md R66). -/
theorem rngAnswer_of_bytes {b : List Byte} {rest : List RngAnswer} (hr : s.rngReady = .bytes b :: rest)
    (hl : b.length = entBytes s.build.w) : s.rngAnswer = some b := by
  simp only [State.rngAnswer, hr, ← hl, rngBytes_known]

theorem rngAnswer_of_exhausted {rest : List RngAnswer} (hr : s.rngReady = .exhausted :: rest) :
    s.rngAnswer = none := by
  simp only [State.rngAnswer, hr]

/-- Settles O4: the outcome follows the oracle's answer, which is the offered one where there is one. -/
theorem acqRngCommitsTheAnswerOrLocks : Obligations.AcqRngCommitsTheAnswerOrLocks := by
  unfold Obligations.AcqRngCommitsTheAnswerOrLocks
  refine ⟨fun _ => decode_encode (i := .acqRng) nofun, fun s => exec_acqRng_phaseError, ?_, ?_, ?_⟩
  · intro s b rest hf hp hr hl
    rw [exec_acqRng_commits hf hp (rngAnswer_of_bytes hr hl), hr, List.tail_cons]
  · intro s rest hf hp hr
    rw [exec_acqRng_locks hf hp (rngAnswer_of_exhausted hr), hr, List.tail_cons]
  · intro s hf hp
    cases ha : s.rngAnswer with
    | none => exact .inr (exec_acqRng_locks hf hp ha)
    | some b => exact .inl ⟨b, length_of_rngAnswer ha, exec_acqRng_commits hf hp ha⟩

/-! ### The host-input commands, for any required length, alphabet and encoding -/

section
variable {i : Instr} {req : Nat} {legal : Byte → Bool} {e : List Bool} {alphabet : List Byte}
  (he : exec i s = .next (s.acquireInput req legal e))
include he

theorem exec_input_phaseError (hp : s.phase ≠ .collecting) :
    exec i s = .next { s with err := .phase, errinfo := BitVec.ofNat 16 (phaseCode s.phase) } := by
  rw [he, acquireInput_wrongPhase hp]
  rfl

variable (hp : s.phase = .collecting)
include hp

theorem exec_input_lengthError (hl : s.inlen.toNat ≠ req) :
    exec i s = .next { s with err := .length, errinfo := BitVec.ofNat 16 req } := by
  rw [he, acquireInput_bad hp (validate_length hl)]
  rfl

theorem exec_input_alphabetError (halph : ∀ c, legal c = true ↔ c ∈ alphabet) (hl : s.inlen.toNat = req) {k : Nat}
    (hk : k < req) (hbad : s.inbufByte k ∉ alphabet) (hbelow : ∀ j < k, s.inbufByte j ∈ alphabet) :
    exec i s = .next { s with err := .alphabet, errinfo := BitVec.ofNat 16 k } := by
  have illegal : legal (s.inbufByte k) = false := by rwa [← Bool.not_eq_true, halph]
  have lowest : validate s req legal = some (.alphabet, k) :=
    validate_some.mpr (.inr ⟨hl, rfl, hk, illegal, fun j hj => (halph _).mpr (hbelow j hj)⟩)
  rw [he, acquireInput_bad hp lowest]
  rfl

theorem exec_input_commits (hl : s.inlen.toNat = req) (hlegal : ∀ k < req, legal (s.inbufByte k) = true) :
    exec i s =
      .next { s with ebuf := e, csum := BitVec.ofNat 8 (checksum s.build e), inbuf := [], inlen := 0,
                     phase := .csumAppended, err := .ok, errinfo := 0 } := by
  rw [he, acquireInput_good hp (validate_none.mpr ⟨hl, hlegal⟩)]
  rfl

end

/-! ### ACQ_RAW -/

/-- Settles O5: the host-input outcomes at an alphabet that holds every byte. -/
theorem acqRawCommitsHostBytes : Obligations.AcqRawCommitsHostBytes := by
  unfold Obligations.AcqRawCommitsHostBytes
  refine ⟨fun _ => decode_encode (i := .acqRaw) nofun, fun s hf => exec_input_phaseError (exec_acqRaw hf),
    fun s hf => exec_input_lengthError (exec_acqRaw hf), fun s hf hp hl => ?_⟩
  exact ⟨_, rfl, exec_input_commits (exec_acqRaw hf) hp hl fun _ _ => rfl⟩

/-! ### ACQ_COIN -/

theorem isHeads_eq_decide (c : Byte) : isHeads c = decide (c = 0x48 ∨ c = 0x68) :=
  (Bool.decide_or _ _).symm

theorem getElem?_coinEncode {n k : Nat} (h : k < n) (sym : Nat → Byte) :
    (coinEncode n sym)[k]? = some (isHeads (sym k)) := by
  simp [coinEncode, h]

/-- Settles O6: the host-input outcomes at the coin alphabet, and the encoding read at each position. -/
theorem acqCoinCommitsFlips : Obligations.AcqCoinCommitsFlips := by
  unfold Obligations.AcqCoinCommitsFlips
  refine ⟨fun _ => decode_encode (i := .acqCoin) nofun, fun s hf => exec_input_phaseError (exec_acqCoin hf),
    fun s hf => exec_input_lengthError (exec_acqCoin hf), ?_, ?_⟩
  · intro s k hf hp hl hk hbad hbelow
    exact exec_input_alphabetError (exec_acqCoin hf) hp legalCoin_iff hl hk hbad hbelow
  · intro s hf hp hl hlegal
    refine ⟨coinEncode (entBits s.build.w) s.inbufByte, length_coinEncode _ _, fun k hk => ?_, ?_⟩
    · rw [getElem?_coinEncode hk, isHeads_eq_decide]
    · exact exec_input_commits (exec_acqCoin hf) hp hl fun k hk => (legalCoin_iff _).mpr (hlegal k hk)

/-! ### ACQ_DICE -/

/-- The one build with dice takes 95 rolls, in 23 groups of four and three trailing (00_scope.md R9, R10). -/
theorem exec_acqDice_w24 (hf : s.fatal = false) (hw : s.build.w = .w24) :
    exec .acqDice s = .next (s.acquireInput 95 legalDice
      (diceEncode 24 fun k => rollValue (s.inbufByte k))) := by
  rw [exec_acqDice hf ((dicePresent_iff _).mpr hw), hw]
  rfl

theorem slice_diceEncode {w g : Nat} (h : g < w - 1) (r : Nat → Nat) :
    slice (diceEncode w r) (11 * g) 11 =
      seqOf 11 (fold (r (4 * g)) (r (4 * g + 1)) (r (4 * g + 2)) (r (4 * g + 3))) :=
  slice_flatMap (fun _ _ => length_seqOf _ _) h

theorem getElem?_diceEncode_trailing {w j : Nat} (h : j < 3) (r : Nat → Nat) :
    (diceEncode w r)[11 * (w - 1) + j]? = some (trail (r (4 * (w - 1) + j))) := by
  have groups : ((List.range (w - 1)).flatMap fun g =>
      seqOf 11 (fold (r (4 * g)) (r (4 * g + 1)) (r (4 * g + 2)) (r (4 * g + 3)))).length = 11 * (w - 1) := by
    simp [List.length_flatMap, Nat.mul_comm]
  rw [diceEncode, List.getElem?_append_right (groups.trans_le (Nat.le_add_right _ _)), groups,
    Nat.add_sub_cancel_left]
  simp [h]

/-- Settles O7: E_ILLEGAL_CMD without dice; with dice the host-input outcomes at the dice alphabet, and the encoding
read group by group and at the three trailing positions. -/
theorem acqDiceCommitsFoldedRolls : Obligations.AcqDiceCommitsFoldedRolls := by
  unfold Obligations.AcqDiceCommitsFoldedRolls
  refine ⟨⟨decode_encode (i := .acqDice) fun _ => rfl, rfl⟩,
    fun s hf hw => exec_acqDice_absent hf (dicePresent_eq_false hw),
    fun s hf hw => exec_input_phaseError (exec_acqDice_w24 hf hw),
    fun s hf hw => exec_input_lengthError (exec_acqDice_w24 hf hw), ?_, ?_⟩
  · intro s k hf hw hp hl hk hbad hbelow
    exact exec_input_alphabetError (exec_acqDice_w24 hf hw) hp legalDice_iff hl hk hbad hbelow
  · intro s hf hw hp hl hlegal
    refine ⟨fun k => rollValue (s.inbufByte k), diceEncode 24 fun k => rollValue (s.inbufByte k), fun _ => rfl,
      length_diceEncode _ _, fun g hg => slice_diceEncode hg _, fun j hj => getElem?_diceEncode_trailing hj _, ?_⟩
    exact exec_input_commits (exec_acqDice_w24 hf hw) hp hl fun k hk => (legalDice_iff _).mpr (hlegal k hk)

end Sys2Proof.Machine
end

section
/-! The dice fold (41_dice_fold.md R140 to R143, R147): a group of rolls is the kept bits of its integer R followed by
the decision bit, and the complement of a field subtracts from its largest value. -/

namespace Sys2Proof.Machine

/-! ### The last bit and the complement of a sequence -/

/-- The last position of a sequence is its least significant bit. -/
theorem seqOf_succ_last (n v : Nat) : seqOf (n + 1) v = seqOf n (v / 2) ++ [v.testBit 0] := by
  have shifted : ∀ k ∈ List.range n, v.testBit (n + 1 - 1 - k) = (v / 2).testBit (n - 1 - k) := by
    intro k hk
    have hk := List.mem_range.mp hk
    rw [← Nat.testBit_succ, show (n - 1 - k).succ = n + 1 - 1 - k by omega]
  rw [seqOf, List.range_succ, List.map_append, List.map_congr_left shifted]
  simp [seqOf]

theorem seqOf_complement {n v : Nat} (h : v < 2 ^ n) : seqOf n (2 ^ n - 1 - v) = (seqOf n v).map (!·) := by
  apply List.ext_getElem
  · simp
  · intro k hk _
    have below : n - 1 - k < n := by simp at hk; omega
    rw [List.getElem_map, getElem_seqOf, getElem_seqOf, Nat.sub_sub, Nat.add_comm 1,
      Nat.testBit_two_pow_sub_succ h, decide_eq_true below, Bool.true_and]

/-! ### The raw group -/

@[simp] theorem length_rollCode (v : Nat) : (rollCode v).length = 3 := length_seqOf _ _

@[simp] theorem length_rawGroup (a b c d : Nat) : (rawGroup a b c d).length = 12 := rfl

theorem uint_rollCode {v : Nat} (h : v ≤ 6) : uint (rollCode v) = v - 1 := by
  rw [rollCode, uint_seqOf, Nat.mod_eq_of_lt (by omega)]

section
variable {a b c d : Nat} (ha : a ≤ 6) (hb : b ≤ 6) (hc : c ≤ 6) (hd : d ≤ 6)
include ha hb hc hd

theorem uint_rawGroup : uint (rawGroup a b c d) = rawValue a b c d := by
  simp only [rawGroup, uint_append, length_rollCode, uint_rollCode ha, uint_rollCode hb, uint_rollCode hc,
    uint_rollCode hd, rawValue]
  ring

/-- The raw group, cut into kept bits and decision bit (R142). -/
theorem rawGroup_eq_kept_append_decision :
    rawGroup a b c d = seqOf 11 (rawValue a b c d / 2) ++ [(rawValue a b c d).testBit 0] := by
  rw [← seqOf_succ_last, ← uint_rawGroup ha hb hc hd, seqOf_uint_of_length (length_rawGroup a b c d)]

theorem take_rawGroup : (rawGroup a b c d).take 11 = seqOf 11 (rawValue a b c d / 2) := by
  rw [rawGroup_eq_kept_append_decision ha hb hc hd, List.take_left' (length_seqOf _ _)]

theorem getElem?_rawGroup_decision : (rawGroup a b c d)[11]? = some (decide (rawValue a b c d % 2 = 1)) := by
  rw [rawGroup_eq_kept_append_decision ha hb hc hd, List.getElem?_append_right (length_seqOf _ _).le, length_seqOf,
    Nat.testBit_zero]
  rfl

theorem kept_lt : rawValue a b c d / 2 < 2 ^ 11 := by
  unfold rawValue
  omega

/-! ### The fold, by the decision bit -/

theorem seqOf_fold_of_decision_one (h : (rawGroup a b c d)[11]? = some true) :
    seqOf 11 (fold a b c d) = ((rawGroup a b c d).take 11).map (!·) := by
  have odd : rawValue a b c d % 2 = 1 := by simpa [getElem?_rawGroup_decision ha hb hc hd] using h
  rw [fold, if_pos odd, take_rawGroup ha hb hc hd]
  exact seqOf_complement (kept_lt ha hb hc hd)

theorem seqOf_fold_of_decision_zero (h : (rawGroup a b c d)[11]? = some false) :
    seqOf 11 (fold a b c d) = (rawGroup a b c d).take 11 := by
  have even : ¬ rawValue a b c d % 2 = 1 := by simpa [getElem?_rawGroup_decision ha hb hc hd] using h
  rw [fold, if_neg even, take_rawGroup ha hb hc hd]

end

theorem roll_le_six {v : Nat} (h : v ∈ [1, 2, 3, 4, 5, 6]) : v ≤ 6 := by
  simp at h
  omega

/-- Settles O15: both values of the decision bit, for rolls up to six. -/
theorem foldComplementsOnTheDecisionBit : Obligations.FoldComplementsOnTheDecisionBit := by
  unfold Obligations.FoldComplementsOnTheDecisionBit
  intro a ha b hb c hc d hd
  have la := roll_le_six ha
  have lb := roll_le_six hb
  have lc := roll_le_six hc
  have ld := roll_le_six hd
  exact ⟨seqOf_fold_of_decision_one la lb lc ld, seqOf_fold_of_decision_zero la lb lc ld, length_rawGroup a b c d⟩

end Sys2Proof.Machine
end

section
/-! The indexer (44_indexer.md R190): DERIVE's two outcomes, the groups before the last as slices of EBUF alone, and the
indices of constant buffers. -/

namespace Sys2Proof.Machine

variable {s : State} {i : Nat}

/-! ### DERIVE -/

theorem exec_derive_wrongPhase (hf : s.fatal = false) (hp : s.phase ≠ .csumAppended) :
    exec .derive s = .next s.phaseError := by
  rw [exec_derive hf, if_pos hp]

theorem exec_derive_slices (hf : s.fatal = false) (hp : s.phase = .csumAppended) :
    exec .derive s =
      .next { s with idx := deriveIdx s.build s.ebuf s.csum s.idx, phase := .derived, err := .ok, errinfo := 0 } := by
  rw [exec_derive hf, if_neg (not_not_intro hp)]
  rfl

theorem getElem_deriveIdx_of_lt {b : Build} {e : List Bool} {c : BitVec 8} {old : Vector (BitVec 11) 24} (h : i < 24)
    (hi : i < wordCount b.w) : (deriveIdx b e c old)[i] = sliceIndex (combined b e c) i := by
  rw [getElem_deriveIdx, if_pos hi]

theorem getElem_deriveIdx_of_ge {b : Build} {e : List Bool} {c : BitVec 8} {old : Vector (BitVec 11) 24} (h : i < 24)
    (hi : wordCount b.w ≤ i) : (deriveIdx b e c old)[i] = old[i] := by
  rw [getElem_deriveIdx, if_neg (Nat.not_lt.mpr hi)]

/-! ### The groups before the last -/

/-- CSUM is shorter than a group, so 11 * (W - 1) = 33 * CSUM_BITS - 11 is at most ENT_BITS = 32 * CSUM_BITS. -/
theorem group_within_entropy {w : WordCount} (h : i < wordCount w - 1) : 11 * i + 11 ≤ entBits w := by
  have counted := wordCount_eq w
  have few := csumBits_le w
  rw [entBits_eq]
  omega

theorem sliceIndex_combined {b : Build} {e : List Bool} (c : BitVec 8) (he : e.length = entBits b.w)
    (hi : i < wordCount b.w - 1) : sliceIndex (combined b e c) i = sliceIndex e i := by
  have inside : 11 * i + 11 ≤ e.length := he ▸ group_within_entropy hi
  rw [sliceIndex, combined, slice_append_left inside, sliceIndex]

/-! ### Constant buffers -/

theorem seqOf_zero (n : Nat) : seqOf n 0 = List.replicate n false := by
  simp [seqOf, List.map_const']

theorem slice_replicate (m a n : Nat) (b : Bool) :
    slice (List.replicate m b) a n = List.replicate (min n (m - a)) b := by
  rw [slice, List.drop_replicate, List.take_replicate]

theorem uint_replicate_false (n : Nat) : uint (List.replicate n false) = 0 := by
  induction n with
  | zero => rfl
  | succ n ih => rw [List.replicate_succ, uint_cons, ih, Bool.toNat_false, Nat.zero_mul]

theorem combined_zeros (b : Build) :
    combined b (List.replicate (entBits b.w) false) 0 = List.replicate (entBits b.w + csumBits b.w) false := by
  have noCsum : seqOf (csumBits b.w) (0 : BitVec 8).toNat = List.replicate (csumBits b.w) false := seqOf_zero _
  rw [combined, noCsum, List.replicate_append_replicate]

theorem sliceIndex_zeros (m i : Nat) : sliceIndex (List.replicate m false) i = 0 := by
  rw [sliceIndex, slice_replicate, uint_replicate_false]
  rfl

theorem sliceIndex_ones {m : Nat} (h : 11 * i + 11 ≤ m) : sliceIndex (List.replicate m true) i = 0x7FF := by
  have full : min 11 (m - 11 * i) = 11 := by omega
  rw [sliceIndex, slice_replicate, full]
  rfl

/-- Settles O9: the new registers are `deriveIdx`, read below W by its slices and from W on by the old value; the
corner cases are its slices of constant buffers and of EBUF alone. -/
theorem deriveSlicesTheCombinedBuffer : Obligations.DeriveSlicesTheCombinedBuffer := by
  unfold Obligations.DeriveSlicesTheCombinedBuffer
  refine ⟨fun _ => decode_encode (i := .derive) nofun, fun s => exec_derive_wrongPhase, fun s hf hp => ?_⟩
  have below {i : Nat} (hi : i < wordCount s.build.w - 1) : i < wordCount s.build.w := by omega
  refine ⟨deriveIdx s.build s.ebuf s.csum s.idx, exec_derive_slices hf hp, ?_, ?_, ?_, ?_, ?_⟩
  · intro i h hi
    rw [getElem_deriveIdx_of_lt h hi, toNat_sliceIndex, combined]
  · intro i h hi
    exact getElem_deriveIdx_of_ge h hi
  · intro zeroEbuf zeroCsum i h hi
    rw [getElem_deriveIdx_of_lt h hi, zeroEbuf, zeroCsum, combined_zeros, sliceIndex_zeros]
  · intro onesEbuf i h hi
    have full : s.ebuf.length = entBits s.build.w := by rw [onesEbuf, List.length_replicate]
    rw [getElem_deriveIdx_of_lt h (below hi), sliceIndex_combined s.csum full hi, onesEbuf,
      sliceIndex_ones (group_within_entropy hi)]
  · intro full i h hi
    rw [getElem_deriveIdx_of_lt h (below hi), sliceIndex_combined s.csum full hi, toNat_sliceIndex]

end Sys2Proof.Machine
end

section
/-! STATUS as the host reads it (45_session.md R217): bit by bit while busy, as a number when not. -/

namespace Sys2Proof.Machine

variable {s : State} {rest : List Event}

/-! ### The word read -/

/-- The bits that a busy read leaves open: [8:4] and [2:0]. -/
theorem getLsbD_openBits (i : Nat) : (0x1F7 : Word).getLsbD i = decide (i < 9 ∧ i ≠ 3) := by
  by_cases h : i < 9
  · interval_cases i <;> rfl
  · have small : (0x1F7 : Nat) < 2 ^ i := lt_of_lt_of_le (by decide) (Nat.pow_le_pow_right two_pos (not_lt.mp h))
    rw [decide_eq_false fun low => h low.1]
    exact Nat.testBit_lt_two_pow small

theorem getLsbD_statusRead_of_busy (hb : s.busy = true) (i : Nat) :
    (statusRead s).getLsbD i =
      ((Config.busyStatus s.draws).getLsbD i && decide (i < 9 ∧ i ≠ 3) || decide (i = 3)) := by
  have busy_bit : (0x008 : Word).getLsbD i = decide (i = 3) := by
    rw [show (0x008 : Word) = BitVec.twoPow 32 3 from rfl, BitVec.getLsbD_twoPow]
    simp [eq_comm]
  rw [statusRead, if_pos hb, BitVec.getLsbD_or, BitVec.getLsbD_and, getLsbD_openBits, busy_bit]

theorem statusRead_of_not_busy (hb : s.busy = false) : statusRead s = statusWord s := by
  simp [statusRead, hb]

/-- The fields of STATUS do not overlap, and fit the word. -/
theorem toNat_statusWord_of_not_busy (hb : s.busy = false) :
    (statusWord s).toNat = s.fatal.toNat * 256 + errCode s.err * 16 + phaseCode s.phase := by
  have hfatal := Bool.toNat_le s.fatal
  have herr := errCode_le s.err
  have hphase := phaseCode_le s.phase
  rw [statusWord, hb, BitVec.toNat_ofNat, Bool.toNat_false]
  omega

/-! ### The step that reads it -/

theorem admittedAt_status : admittedAt 0x00C 4 = true := admittedAt_four (by decide) rfl

theorem statusDrawn_of_busy (hb : s.busy = true) : s.statusDrawn .status = s.drawn := by
  simp [State.statusDrawn, hb]

theorem step_status_read_busy (hs : s.schedule = .read (s.build.base + 0x00C) 4 :: rest) (hb : s.busy = true) :
    step s = .next ((s.withSchedule rest).drawn.logRead (statusRead s)) := by
  rw [step_read hs admittedAt_status (.inr rfl), show regAt 0x00C = .status from rfl,
    statusDrawn_of_busy (s := s.withSchedule rest) hb]
  rfl

theorem step_status_read (hs : s.schedule = .read (s.build.base + 0x00C) 4 :: rest) (hb : s.busy = false) :
    step s = .next ((s.withSchedule rest).logRead (statusWord s)) := by
  rw [step_read hs admittedAt_status (.inl hb), statusDrawn_of_not_busy (s := s.withSchedule rest) hb,
    ← statusRead_of_not_busy hb]
  rfl

/-- Settles O43: a STATUS read is one step in either case, and the word it logs is known bit by bit while busy
(`getLsbD_statusRead_of_busy`) and as a number when not (`toNat_statusWord_of_not_busy`). -/
theorem statusWhileBusyIsFree : Obligations.StatusWhileBusyIsFree := by
  unfold Obligations.StatusWhileBusyIsFree
  constructor
  · intro s rest hb hs
    refine ⟨statusRead s, step_status_read_busy hs hb, ?_, fun i hi => ?_, fun i hi hne => ?_⟩
    · simp [getLsbD_statusRead_of_busy hb]
    · have above : ¬ i < 9 ∧ i ≠ 3 := by omega
      simp [getLsbD_statusRead_of_busy hb, above]
    · simp [getLsbD_statusRead_of_busy hb, hi, hne]
  · intro s rest hb hs
    exact ⟨statusWord s, step_status_read hs hb, toNat_statusWord_of_not_busy hb⟩

end Sys2Proof.Machine
end

section
/-! The session (45_session.md R210, R211, R213): OPEN and FINISH, outcome by outcome, and the table of phases against
what every command can do. -/

namespace Sys2Proof.Machine

variable {s : State} {i : Instr} {req n : Nat} {legal : Byte → Bool} {e : List Bool} {c : ErrCode}

/-! ### OPEN -/

theorem exec_openSession_opens (hf : s.fatal = false) (hp : s.phase = .idle ∨ s.phase = .done) :
    exec .openSession s =
      .next { s with inbuf := [], inlen := 0, phase := .collecting, err := .ok, errinfo := 0 } := by
  rw [exec_openSession hf, if_pos hp]
  rfl

theorem exec_openSession_wrongPhase (hf : s.fatal = false) (hp : ¬(s.phase = .idle ∨ s.phase = .done)) :
    exec .openSession s = .next s.phaseError := by
  rw [exec_openSession hf, if_neg hp]

/-- Settles O1: the two outcomes of OPEN, an INBUF write outside COLLECTING (`step_inbuf_write_ignored`), and the
spec's run from reset. -/
theorem openBeginsASession : Obligations.OpenBeginsASession := by
  unfold Obligations.OpenBeginsASession
  refine ⟨fun _ => decode_encode (i := .openSession) nofun, fun s hf hp => exec_openSession_opens hf hp, ?_, ?_, ?_⟩
  · intro s hf hp
    have open_session : ¬(s.phase = .idle ∨ s.phase = .done) := by
      rcases hp with hp | hp | hp <;> simp [hp]
    exact exec_openSession_wrongPhase hf open_session
  · intro s rest off n v hp hb hlo hhi hn hal hs
    have ha := admittedAt_of_inbuf hlo hhi hn hal
    have nonempty : 1 ≤ n := (admittedAt_lt ha).2
    have not_collecting : s.phase ≠ .collecting := by rcases hp with hp | hp <;> simp [hp]
    exact step_inbuf_write_ignored ⟨hlo, by omega⟩ ha hb hs (.inr not_collecting)
  · exact ⟨_, rfl, by decide⟩

/-! ### FINISH -/

theorem exec_finish_zeroizes (hf : s.fatal = false) (hp : s.phase = .derived) :
    exec .finish s = .next (s.clearPhrase.succeed .done) := by
  rw [exec_finish hf, if_pos hp]

theorem exec_finish_wrongPhase (hf : s.fatal = false) (hp : s.phase ≠ .derived) :
    exec .finish s = .next s.phaseError := by
  rw [exec_finish hf, if_neg hp]

theorem readReg_idx_of_zero (h : s.idx = zeroIdx) (k : Nat) : readReg s (.idx k) = 0 := by
  simp [readReg, idxAt_of_zero h]

theorem readReg_word_of_not_derived (h : s.phase ≠ .derived) (k : Nat) : readReg s (.word k) = 0 := if_pos (.inl h)

/-- STATUS in DONE, right after FINISH. -/
theorem statusRead_finished (hf : s.fatal = false) (hb : s.busy = false) :
    statusRead (s.clearPhrase.succeed .done) = 0x00000004 := by
  have idle : (s.clearPhrase.succeed .done).busy = false := hb
  apply BitVec.eq_of_toNat_eq
  rw [statusRead_of_not_busy idle, toNat_statusWord_of_not_busy idle]
  simp [hf, errCode, phaseCode]

/-- Settles O3: the two outcomes of FINISH; with IDX zero and PHASE = DONE nothing of the phrase reads back. -/
theorem finishEndsTheSession : Obligations.FinishEndsTheSession := by
  unfold Obligations.FinishEndsTheSession
  refine ⟨fun _ => decode_encode (i := .finish) nofun, ?_, fun s hf hp => exec_finish_wrongPhase hf hp, ?_⟩
  · intro s hf hp
    refine ⟨s.clearPhrase.succeed .done, exec_finish_zeroizes hf hp, rfl, fun k => readReg_idx_of_zero rfl k,
      fun k => readReg_word_of_not_derived (by simp) k, ?_⟩
    exact statusRead_finished (s := s.clearPending) hf rfl
  · intro s inv hp
    exact (inv.input (by simp [hp])).symm

/-! ### The table of phases -/

/-- The table lists a row for a phase and a command exactly where the command acts in the phase. -/
theorem exists_mem_sessionTable_iff {p : Phase} : (∃ q, (p, i, q) ∈ sessionTable) ↔ actsIn i p = true := by
  cases i <;> cases p <;> simp [sessionTable, actsIn]

theorem InputOf.mem_sessionTable (h : InputOf s i req legal e) :
    (.collecting, i, .csumAppended) ∈ sessionTable := by
  cases h <;> decide

theorem InputOf.mem_hostInput (h : InputOf s i req legal e) : i ∈ [.acqRaw, .acqCoin, .acqDice] := by
  cases h <;> decide

/-- Validate raises one of two codes (40_acquisition.md R111). -/
theorem code_of_validate_some (h : validate s req legal = some (c, n)) : c = .length ∨ c = .alphabet := by
  rcases validate_some.mp h with ⟨_, length, _⟩ | ⟨_, alphabet, _⟩
  · exact .inl length
  · exact .inr alphabet

theorem toNat_phaseError_errinfo (s : State) : s.phaseError.errinfo.toNat = phaseCode s.phase := by
  have hphase := phaseCode_le s.phase
  rw [State.phaseError_errinfo, BitVec.toNat_ofNat]
  omega

/-- Settles O30: each thing a command can do (`exec_does`) is one of the four outcomes; the two that need FATAL = 1 or
a build without dice cannot happen. -/
theorem phasesMoveAsTheTableSays : Obligations.PhasesMoveAsTheTableSays := by
  unfold Obligations.PhasesMoveAsTheTableSays
  refine ⟨fun s c why _ illegal => ⟨_, runCommand_of_illegal illegal, rfl, rfl⟩, fun i s hf hw => ?_⟩
  obtain ⟨t, ht, does⟩ := exec_does i s
  refine ⟨t, ht, ?_⟩
  cases does with
  | dropped _ fatal => simp [hf] at fatal
  | noDice _ absent => exact absurd hw (by simp [Instr.wf, absent])
  | wrongPhase _ _ _ idle =>
    have unlisted : ∀ p, (s.phase, i, p) ∉ sessionTable := by
      rw [← not_exists, exists_mem_sessionTable_iff, idle]
      exact Bool.false_ne_true
    exact .inr (.inr (.inr ⟨rfl, hf, rfl, toNat_phaseError_errinfo s, unlisted⟩))
  | badInput _ req legal e c n _ hp input bad =>
    have invalid : ¬s.inputValid i := by simp [input.valid_iff, bad]
    exact .inr (.inl ⟨code_of_validate_some bad, hf, hp, hp, input.mem_hostInput, invalid⟩)
  | goodInput _ req legal e _ hp input good =>
    exact .inl ⟨rfl, hf, hp ▸ input.mem_sessionTable, input.valid_iff.mpr good⟩
  | exhausted _ hp noAnswer => exact .inr (.inr (.inl ⟨rfl, rfl, hp, rfl, rfl, noAnswer⟩))
  | random b _ hp bytes =>
    have answered : s.rngAnswer ≠ none := by simp [bytes]
    exact .inl ⟨rfl, hf, by simp [hp, sessionTable], answered⟩
  | opened _ hp => exact .inl ⟨rfl, hf, by rcases hp with hp | hp <;> simp [hp, sessionTable], trivial⟩
  | aborted _ => exact .inl ⟨rfl, hf, by cases s.phase <;> simp [sessionTable], trivial⟩
  | sliced _ hp => exact .inl ⟨rfl, hf, by simp [hp, sessionTable], trivial⟩
  | finished _ hp => exact .inl ⟨rfl, hf, by simp [hp, sessionTable], trivial⟩

end Sys2Proof.Machine
end

section
/-! What a build fixes: which words decode (30_encoding.md R92 to R95), its derived sizes (00_scope.md R8 to R10) and its
constant register CFG (10_state.md R22). -/

namespace Sys2Proof

/-- ACQ_DICE is the one command that a build may lack (30_encoding.md R95). -/
theorem Instr.wf_iff {b : Build} {i : Instr} : i.wf b = true ↔ (i = .acqDice → b.dicePresent = true) := by
  cases i <;> simp [Instr.wf]

/-- Settles O22: the words that decode are the encodings (`decode_eq_legal_iff`), and the side condition is
well-formedness. -/
theorem decodeInvertsEncode : Obligations.DecodeInvertsEncode := by
  unfold Obligations.DecodeInvertsEncode
  intro b c i
  rw [decode_eq_legal_iff, Instr.wf_iff]

/-- Settles O23: the encodings, each laid out in four bytes, and three words that are none. -/
theorem writtenOutWordsDecode : Obligations.WrittenOutWordsDecode := by
  unfold Obligations.WrittenOutWordsDecode
  decide

namespace Machine

/-! ### Derived sizes -/

theorem wordCount_eq_24_iff (w : WordCount) : wordCount w = 24 ↔ w = .w24 := by
  cases w <;> decide

/-- Settles O53: everything is a multiple of CSUM_BITS, which runs from 1 to 8. -/
theorem sizesOfEveryBuild : Obligations.SizesOfEveryBuild := by
  unfold Obligations.SizesOfEveryBuild
  intro b
  have words := wordCount_eq b.w
  have total := totalBits_eq b.w
  have entropy := entBits_eq b.w
  have bytes := entBits_eq_bytes b.w
  have pos := csumBits_pos b.w
  have le := csumBits_le b.w
  have dice : b.dicePresent = true ↔ wordCount b.w = 24 := by rw [dicePresent_iff, wordCount_eq_24_iff]
  rw [dice]
  refine ⟨by omega, by omega, by omega, rfl, by omega, by omega, by omega, by omega, by omega, rfl, Iff.rfl, by omega⟩

/-! ### CFG -/

/-- CFG and DICE_PRESENT depend on W alone. -/
theorem cfgWord_eq_reference (b : Build) : cfgWord b = cfgWord { Build.reference with w := b.w } := rfl

theorem dicePresent_eq_reference (b : Build) :
    b.dicePresent = ({ Build.reference with w := b.w } : Build).dicePresent := rfl

/-- Settles O54: the fields of CFG, read at each of the eight word counts. -/
theorem cfgReportsTheBuild : Obligations.CfgReportsTheBuild := by
  unfold Obligations.CfgReportsTheBuild
  intro b
  rw [cfgWord_eq_reference, dicePresent_eq_reference]
  generalize b.w = w
  cases w <;> decide

end Machine

end Sys2Proof
end

section
/-! Every step keeps the state invariants (10_state.md R43): the block's registers under each host access, each command
and each completion, said once and put together over `step_cases`. -/

namespace Sys2Proof.Machine

variable {s t : State} {i : Instr} {off n : Nat} {v : Word}

/-! ### Operations that leave the block as it is -/

theorem State.SameBlock.withSchedule (s : State) (es : List Event) : s.SameBlock (s.withSchedule es) := by
  simp [State.SameBlock]

theorem State.SameBlock.logRead_statusDrawn (s : State) (r : Reg) (v : Word) :
    s.SameBlock ((s.statusDrawn r).logRead v) := by
  simp [State.SameBlock]

theorem State.SameBlock.selfChecked (s : State) : s.SameBlock s.selfChecked := by
  simp [State.SameBlock]

theorem State.SameBlock.rngUsed (s : State) : s.SameBlock s.rngUsed := by
  simp [State.SameBlock]

/-! ### The invariants under each operation -/

theorem State.Inv.withSchedule (h : s.Inv) (es : List Event) : (s.withSchedule es).Inv :=
  h.same (.withSchedule s es)

/-- A write keeps them; INBUF and INLEN are written in COLLECTING only (45_session.md R214). -/
theorem State.Inv.write (h : s.Inv) (hf : s.fatal = false) (does : WriteDoes s off n v t) : t.Inv := by
  cases does with
  | nothing => exact h
  | command _ => exact { h with fatal := fun locked => by simp [hf] at locked }
  | inlen _ hp => exact { h with input := fun elsewhere => absurd hp elsewhere }
  | wsel _ => exact { h with fatal := fun locked => by simp [hf] at locked }
  | inbuf hlo hhi hp =>
    have fits : off - 0x400 + n ≤ 256 := by omega
    exact { h with
      input := fun elsewhere => absurd hp elsewhere
      memory := Memory.wf_store h.memory _ _ _ fits }

/-- OPEN starts from zero entropy and indices, which IDLE and DONE promise (45_session.md R220). -/
theorem State.Inv.opened (h : s.Inv) (hf : s.fatal = false) (hp : s.phase = .idle ∨ s.phase = .done) :
    (s.clearInput.succeed .collecting).Inv where
  input := fun elsewhere => absurd rfl elsewhere
  entropy := fun _ => h.entropy (by rcases hp with hp | hp <;> simp [hp, Phase.holdsEntropy])
  indices := fun _ => h.indices (by rcases hp with hp | hp <;> simp [hp])
  fatal := fun locked => by simp [hf] at locked
  memory := Memory.wf_nil
  width := h.width
  csumFits := h.csumFits
  csumIs := fun holds => by simp [Phase.holdsEntropy] at holds
  idxIs := fun derived => by simp at derived

/-- A block with its phrase zeroized and no input meets them in a phase that promises no entropy. -/
theorem State.Inv.zeroized {p : Phase} (hin : s.inlen = 0 ∧ s.inbuf = []) (hf : s.fatal = false)
    (hp : p.holdsEntropy = false) : (s.clearPhrase.succeed p).Inv where
  input := fun _ => hin
  entropy := fun _ => ⟨rfl, rfl⟩
  indices := fun _ => rfl
  fatal := fun locked => by simp [hf] at locked
  memory := by rw [State.succeed_inbuf, State.clearPhrase_inbuf, hin.2]; exact Memory.wf_nil
  width := by simp
  csumFits := by simp
  csumIs := fun holds => by simp [hp] at holds
  idxIs := fun derived => by
    cases (derived : p = .derived)
    cases hp

/-- DERIVE writes the slices over registers that were zero (44_indexer.md R190). -/
theorem State.Inv.sliced (h : s.Inv) (hf : s.fatal = false) (hp : s.phase = .csumAppended) :
    (({ s with idx := deriveIdx s.build s.ebuf s.csum s.idx } : State).succeed .derived).Inv where
  input := fun _ => h.input (by simp [hp])
  entropy := fun empty => by simp [Phase.holdsEntropy] at empty
  indices := fun elsewhere => absurd rfl elsewhere
  fatal := fun locked => by simp [hf] at locked
  memory := h.memory
  width := h.width
  csumFits := h.csumFits
  csumIs := fun _ => h.csumIs (by simp [hp, Phase.holdsEntropy])
  idxIs := fun _ => by
    have fresh : s.idx = zeroIdx := h.indices (by simp [hp])
    simp [fresh]

/-- Every command keeps them, once its completion has cleared PENDING: a fatal entry leaves nothing pending. -/
theorem State.Inv.command (h : s.Inv) (does : CommandDoes s i t) : t.clearPending.Inv := by
  cases does with
  | dropped _ _ => exact h.clearPending
  | noDice _ _ => exact (h.raiseErr _ _).clearPending
  | wrongPhase _ _ _ _ => exact (h.raiseErr _ _).clearPending
  | badInput _ _ _ _ _ _ _ _ _ _ => exact (h.raiseErr _ _).clearPending
  | goodInput _ _ _ _ hf hp input _ => exact (h.commit hp hf (length_of_inputOf input)).clearPending
  | exhausted _ _ _ => exact .fatalEntry _
  | random b hf hp answer =>
    have full : (bitsOf b).length = entBits s.rngUsed.build.w := by
      rw [length_bitsOf, length_of_rngAnswer answer, State.rngUsed_build, entBits_eq_bytes]
    exact ((h.same (.rngUsed s)).commit (s := s.rngUsed) hp hf full).clearPending
  | opened hf hp => exact (h.opened hf hp).clearPending
  | aborted hf => exact (State.Inv.zeroized (s := s.clearInput) ⟨rfl, rfl⟩ hf rfl).clearPending
  | sliced hf hp => exact (h.sliced hf hp).clearPending
  | finished hf hp => exact (State.Inv.zeroized (h.input (by simp [hp])) hf rfl).clearPending

theorem State.Inv.completion (h : s.Inv) (does : CompletionDoes s t) : t.Inv := by
  have checked : s.selfChecked.Inv := h.same (.selfChecked s)
  cases does with
  | idle _ => exact h
  | droppedFatal _ _ _ => exact h.clearPending
  | selfCheck _ _ _ _ => exact .fatalEntry _
  | illegal _ _ _ _ _ _ => exact (checked.raiseErr _ _).clearPending
  | command _ _ _ _ _ _ _ _ command => exact checked.command command

/-- The reset state of a build meets them (10_state.md R43: "reset establishes them"). -/
theorem State.Inv.resetFrom (s : State) : s.resetFrom.Inv where
  input := fun _ => ⟨rfl, rfl⟩
  entropy := fun _ => ⟨rfl, rfl⟩
  indices := fun _ => rfl
  fatal := fun locked => by simp at locked
  memory := Memory.wf_nil
  width := by simp
  csumFits := by simp
  csumIs := fun holds => by simp [Phase.holdsEntropy] at holds
  idxIs := fun derived => by simp at derived

/-- Settles O49: an access leaves the block as it is or is one register write; a completion is one command, a report or
the fatal entry; and reset brings the invariants about. -/
theorem invariantsAreKept : Obligations.InvariantsAreKept := by
  unfold Obligations.InvariantsAreKept
  intro s t h hstep
  cases step_cases hstep with
  | elsewhere _ rest _ _ _ _ _ => exact h.withSchedule rest
  | read rest _ _ _ _ _ _ => exact (h.withSchedule rest).same (.logRead_statusDrawn _ _ _)
  | ignored rest _ _ _ _ _ => exact h.withSchedule rest
  | write rest _ _ _ _ _ _ _ _ hf does => exact (h.withSchedule rest).write hf does
  | completion rest _ _ does => exact (h.withSchedule rest).completion does
  | reset rest _ => exact .resetFrom _

/-- Settles O47: a clean block is its own reset state. -/
theorem cleanEntryIsIdleAndUnlocked : Obligations.CleanEntryIsIdleAndUnlocked := by
  unfold Obligations.CleanEntryIsIdleAndUnlocked
  intro s h
  have inv : s.Inv := by rw [show s = s.resetFrom from h]; exact .resetFrom s
  exact ⟨h.phase_eq, h.fatal_eq, h.pending_eq, inv⟩

/-- Settles O48: State.reset is the reset state of its build. -/
theorem invariantsHoldAtReset : Obligations.InvariantsHoldAtReset := by
  unfold Obligations.InvariantsHoldAtReset
  exact State.Inv.resetFrom State.reset

end Sys2Proof.Machine
end

section
/-! Who writes what over the whole machine: a host access writes none of PHASE, ERR, ERRINFO, FATAL, EBUF, CSUM, IDX and
nothing of the RNG, so a change of one of them is a completion's or reset's (10_state.md R27, R32 to R35, R40, R45;
20_memory.md R66). -/

namespace Sys2Proof.Machine

variable {s t : State} {e : Event} {rest : List Event} {i : Instr} {off n : Nat} {v c : Word}

/-! ### Three kinds of step -/

/-- What no host access changes. -/
structure AccessKeeps (s t : State) : Prop where
  build : t.build = s.build
  phase : t.phase = s.phase
  err : t.err = s.err
  errinfo : t.errinfo = s.errinfo
  fatal : t.fatal = s.fatal
  ebuf : t.ebuf = s.ebuf
  csum : t.csum = s.csum
  idx : t.idx = s.idx
  rngReady : t.rngReady = s.rngReady
  rngRequests : t.rngRequests = s.rngRequests

theorem AccessKeeps.withSchedule (s : State) (es : List Event) : AccessKeeps s (s.withSchedule es) := by
  constructor <;> rfl

theorem AccessKeeps.read (s : State) (es : List Event) (r : Reg) (v : Word) :
    AccessKeeps s (((s.withSchedule es).statusDrawn r).logRead v) := by
  constructor <;> simp

theorem WriteDoes.keeps (h : WriteDoes (s.withSchedule rest) off n v t) : AccessKeeps s t := by
  cases h <;> constructor <;> rfl

/-- A step is a host access, the completion of what is pending, or reset (60_exceptions.md R250). -/
inductive StepKind (s : State) : State → Prop where
  | access (t : State) : s.nextEvent ≠ .completion → s.nextEvent ≠ .reset → AccessKeeps s t → StepKind s t
  | completion (t : State) : s.nextEvent = .completion → CompletionDoes (s.withSchedule s.schedule.tail) t → StepKind s t
  | reset : s.nextEvent = .reset → StepKind s (s.withSchedule s.schedule.tail).resetFrom

theorem nextEvent_of_schedule (hs : s.schedule = e :: rest) : s.nextEvent = e := by
  simp [State.nextEvent, hs]

theorem StepKind.of_access (hs : s.schedule = e :: rest) (he : e ≠ .completion ∧ e ≠ .reset)
    (keeps : AccessKeeps s t) : StepKind s t := by
  rw [← nextEvent_of_schedule hs] at he
  exact .access t he.1 he.2 keeps

theorem step_kind (h : step s = .next t) : StepKind s t := by
  cases step_cases h with
  | elsewhere e rest _ _ hs he _ =>
    exact .of_access hs (by rcases he with rfl | ⟨v, rfl⟩ <;> simp) (.withSchedule s rest)
  | read rest _ _ hs _ _ _ => exact .of_access hs (by simp) (.read s rest _ _)
  | ignored rest _ _ _ hs _ => exact .of_access hs (by simp) (.withSchedule s rest)
  | write _ _ _ _ _ hs _ _ _ _ does => exact .of_access hs (by simp) does.keeps
  | completion rest t hs does =>
    rcases hs with hs | ⟨hs, rfl⟩
    · exact .completion _ (nextEvent_of_schedule hs) (by rwa [hs, List.tail_cons])
    · exact .completion _ (by simp [State.nextEvent, hs]) (by rwa [hs, List.tail_nil])
  | reset rest hs =>
    have kind := StepKind.reset (nextEvent_of_schedule hs)
    rwa [hs, List.tail_cons] at kind

/-- Settles O31: a step that is neither a completion nor reset is an access. -/
theorem accessesNeverWriteTheStatusFields : Obligations.AccessesNeverWriteTheStatusFields := by
  unfold Obligations.AccessesNeverWriteTheStatusFields
  intro s t hstep not_completion not_reset
  cases step_kind hstep with
  | access _ _ _ keeps => exact ⟨keeps.phase, keeps.err, keeps.errinfo, keeps.fatal⟩
  | completion _ completion _ => exact absurd completion not_completion
  | reset reset => exact absurd reset not_reset

/-! ### What a completion writes -/

theorem CompletionDoes.build_eq (h : CompletionDoes s t) : t.build = s.build := by
  cases h with
  | idle _ => rfl
  | droppedFatal _ _ _ => rfl
  | selfCheck _ _ _ _ => simp
  | illegal _ _ _ _ _ _ => simp
  | command _ _ _ _ _ _ _ _ does => simp [does.frame.1]

/-- Settles O35: an access, a completion and reset all keep the build. -/
theorem noStepChangesTheBuild : Obligations.NoStepChangesTheBuild := by
  unfold Obligations.NoStepChangesTheBuild
  intro s t hstep
  cases step_kind hstep with
  | access _ _ _ keeps => exact keeps.build
  | completion _ _ does => exact does.build_eq
  | reset _ => rfl

/-- EBUF and CSUM under a command: committed, zeroized, or as they were (10_state.md R32, R33). -/
theorem CommandDoes.entropy_cases (h : CommandDoes s i t) :
    (t.ebuf = s.ebuf ∧ t.csum = s.csum) ∨
    (s.fatal = false ∧ s.phase = .collecting ∧ t.phase = .csumAppended ∧ t.err = .ok ∧
      i ∈ [.acqRng, .acqRaw, .acqCoin, .acqDice]) ∨
    (t.ebuf = zeroEntropy s.build ∧ t.csum = 0 ∧ (t.fatal = true ∨ i ∈ [.abort, .finish])) := by
  cases h with
  | goodInput _ _ _ _ hf hp input _ =>
    exact .inr (.inl ⟨hf, hp, rfl, rfl, List.mem_cons_of_mem _ input.mem_hostInput⟩)
  | random _ hf hp _ => exact .inr (.inl ⟨hf, hp, rfl, rfl, by simp⟩)
  | exhausted _ _ _ => exact .inr (.inr ⟨rfl, rfl, .inl rfl⟩)
  | aborted _ => exact .inr (.inr ⟨rfl, rfl, .inr (by simp)⟩)
  | finished _ _ => exact .inr (.inr ⟨rfl, rfl, .inr (by simp)⟩)
  | _ => exact .inl ⟨rfl, rfl⟩

/-- IDX under a command: sliced, zeroized, or as it was (10_state.md R35). -/
theorem CommandDoes.indices_cases (h : CommandDoes s i t) :
    t.idx = s.idx ∨
    (s.fatal = false ∧ s.phase = .csumAppended ∧ t.phase = .derived ∧ i = .derive ∧
      t.idx = deriveIdx s.build s.ebuf s.csum s.idx) ∨
    (t.idx = zeroIdx ∧ (t.fatal = true ∨ i ∈ [.abort, .finish])) := by
  cases h with
  | sliced hf hp => exact .inr (.inl ⟨hf, hp, rfl, rfl, rfl⟩)
  | exhausted _ _ _ => exact .inr (.inr ⟨rfl, .inl rfl⟩)
  | aborted _ => exact .inr (.inr ⟨rfl, .inr (by simp)⟩)
  | finished _ _ => exact .inr (.inr ⟨rfl, .inr (by simp)⟩)
  | _ => exact .inl rfl

/-- The RNG under a command: one request of ACQ_RNG in COLLECTING, or none (20_memory.md R66). -/
theorem CommandDoes.rng_cases (h : CommandDoes s i t) :
    (t.rngRequests = s.rngRequests ∧ t.rngReady = s.rngReady) ∨
    (t.rngRequests = s.rngRequests + 1 ∧ t.rngReady = s.rngReady.tail ∧ s.fatal = false ∧ s.phase = .collecting ∧
      i = .acqRng) := by
  cases h with
  | exhausted hf hp _ => exact .inr ⟨rfl, rfl, hf, hp, rfl⟩
  | random _ hf hp _ => exact .inr ⟨rfl, rfl, hf, hp, rfl⟩
  | _ => exact .inl ⟨rfl, rfl⟩

/-- Settles O32: a step that changes EBUF or CSUM is reset, a fatal entry, or a command of `entropy_cases`. -/
theorem entropyWrittenOnlyByAcquisition : Obligations.EntropyWrittenOnlyByAcquisition := by
  unfold Obligations.EntropyWrittenOnlyByAcquisition
  intro s t hstep changed
  cases step_kind hstep with
  | access _ _ _ keeps => simp [keeps.ebuf, keeps.csum] at changed
  | reset reset => exact .inr ⟨rfl, rfl, .inl reset⟩
  | completion _ completion does =>
    cases does with
    | idle _ => simp at changed
    | droppedFatal _ _ _ => simp at changed
    | selfCheck _ _ _ _ => exact .inr ⟨by simp, rfl, .inr ⟨completion, .inl rfl⟩⟩
    | illegal _ _ _ _ _ _ => simp at changed
    | command c i u hp _ _ hd _ does =>
      rw [State.withSchedule_build] at hd
      rcases does.entropy_cases with ⟨ebuf, csum⟩ | ⟨hf, phase, appended, ok, acq⟩ | ⟨ebuf, csum, by_what⟩
      · simp [ebuf, csum] at changed
      · refine .inl ⟨completion, by simpa using hf, by simpa using phase, appended, ok, c, hp, ?_⟩
        rw [hd]
        exact List.mem_map_of_mem acq
      · refine .inr ⟨by simpa using ebuf, csum, .inr ⟨completion, by_what.imp_right fun ended => ⟨c, hp, ?_⟩⟩⟩
        rw [hd]
        exact List.mem_map_of_mem ended

/-- DERIVE leaves the registers from W on, and there is none from 24 on. -/
theorem idxAt_of_derived {b : Build} {e : List Bool} {k : BitVec 8} (h : t.idx = deriveIdx b e k s.idx) {j : Nat}
    (hj : wordCount b.w ≤ j) : t.idxAt j = s.idxAt j := by
  unfold State.idxAt
  split
  next inside => rw [← getElem_deriveIdx_of_ge (e := e) (c := k) (old := s.idx) inside hj]; simp [h]
  next => rfl

/-- Settles O33: a step that changes IDX is reset, a fatal entry, or a command of `indices_cases`. -/
theorem indicesWrittenOnlyByDerive : Obligations.IndicesWrittenOnlyByDerive := by
  unfold Obligations.IndicesWrittenOnlyByDerive
  intro s t hstep changed
  cases step_kind hstep with
  | access _ _ _ keeps => exact absurd keeps.idx changed
  | reset reset => exact .inr ⟨rfl, .inl reset⟩
  | completion _ completion does =>
    cases does with
    | idle _ => simp at changed
    | droppedFatal _ _ _ => simp at changed
    | selfCheck _ _ _ _ => exact .inr ⟨rfl, .inr ⟨completion, .inl rfl⟩⟩
    | illegal _ _ _ _ _ _ => simp at changed
    | command c i u hp _ _ hd _ does =>
      rw [State.withSchedule_build] at hd
      rcases does.indices_cases with idx | ⟨hf, phase, derived, rfl, idx⟩ | ⟨idx, by_what⟩
      · simp [idx] at changed
      · simp only [State.selfChecked_build, State.selfChecked_idx, State.withSchedule_build,
          State.withSchedule_idx] at idx
        exact .inl ⟨completion, by simpa using hf, by simpa using phase, derived,
          fun j hj => idxAt_of_derived (t := u.clearPending) idx hj, c, hp, hd⟩
      · refine .inr ⟨idx, .inr ⟨completion, by_what.imp_right fun ended => ⟨c, hp, ?_⟩⟩⟩
        rw [hd]
        exact List.mem_map_of_mem ended

/-! ### The completion of a decoded command -/

theorem complete_of_legal (hp : s.pending = some c) (hf : s.fatal = false) (hs : s.spuriousFatal = false)
    (hd : decode s.build.dicePresent c = .legal i) (he : exec i s.selfChecked = .next t) :
    complete s = .next t.clearPending := by
  have rule : runCommand s.selfChecked c = .next t := by
    unfold runCommand
    rw [State.selfChecked_build, hd]
    exact he
  simp [complete, hp, hf, hs, rule, finishCompletion]

/-- ACQ_RNG in COLLECTING asks once, whatever the answer (40_acquisition.md R113). -/
theorem exec_acqRng_asks (hf : s.fatal = false) (hp : s.phase = .collecting) :
    ∃ t, exec .acqRng s = .next t ∧ t.rngRequests = s.rngRequests + 1 ∧ t.rngReady = s.rngReady.tail := by
  cases ha : s.rngAnswer with
  | none => exact ⟨_, exec_acqRng_exhausted hf hp ha, rfl, rfl⟩
  | some b => exact ⟨_, exec_acqRng_bytes hf hp ha, rfl, rfl⟩

/-- Settles O34: a step that asks the RNG is a command of `rng_cases`, and ACQ_RNG in COLLECTING asks
(`exec_acqRng_asks`). -/
theorem onlyAcqRngAsksTheRng : Obligations.OnlyAcqRngAsksTheRng := by
  unfold Obligations.OnlyAcqRngAsksTheRng
  constructor
  · intro s t hstep asked
    cases step_kind hstep with
    | access _ _ _ keeps => simp [keeps.rngRequests, keeps.rngReady] at asked
    | reset _ => simp at asked
    | completion _ completion does =>
      cases does with
      | idle _ => simp at asked
      | droppedFatal _ _ _ => simp at asked
      | selfCheck _ _ _ _ => simp at asked
      | illegal _ _ _ _ _ _ => simp at asked
      | command c i u hp _ _ hd _ does =>
        rcases does.rng_cases with ⟨requests, ready⟩ | ⟨requests, ready, hf, phase, rfl⟩
        · simp [requests, ready] at asked
        · exact ⟨by simpa using requests, by simpa using ready, completion, by simpa using hf, by simpa using phase, c,
            hp, hd⟩
  · intro s c completion hp hf phase unchecked hd
    obtain ⟨u, hu, requests, ready⟩ :=
      exec_acqRng_asks (s := (s.withSchedule s.schedule.tail).selfChecked) (by simpa using hf) (by simpa using phase)
    refine ⟨u.clearPending, ?_, by simpa using requests, by simpa using ready⟩
    rw [step_completion completion]
    exact complete_of_legal (s := s.withSchedule s.schedule.tail) hp hf unchecked hd hu

end Sys2Proof.Machine
end

section
/-! The reports (60_exceptions.md R240 to R246): ERR, ERRINFO and FATAL agree after every step, and the fatal state
changes by reset alone. -/

namespace Sys2Proof.Machine

variable {s t : State} {i : Instr} {rest : List Event} {off : Nat} {v : Word}

/-! ### ERR, ERRINFO and FATAL in agreement -/

/-- The agreement is about the report and the build alone. -/
theorem State.ReportInv.same (h : s.ReportInv) (hb : t.build = s.build) (he : t.err = s.err)
    (hi : t.errinfo = s.errinfo) (hf : t.fatal = s.fatal) : t.ReportInv := by
  constructor
  · rw [he, hi]; exact h.ok
  · rw [he, hi, hb]; exact h.length
  · rw [he, hi]; exact h.alphabet
  · rw [he, hi]; exact h.phase
  · rw [he, hi]; exact h.fatalRng
  · rw [he, hi]; exact h.fatalInv
  · rw [he, hf]; exact h.fatal

/-- A success reports E_OK and 0 (R244). -/
theorem State.ReportInv.of_ok (he : t.err = .ok) (hi : t.errinfo = 0) (hf : t.fatal = false) : t.ReportInv := by
  constructor <;> simp [he, hi, hf]

theorem State.ReportInv.of_illegalCmd (he : t.err = .illegalCmd) (hf : t.fatal = false) : t.ReportInv := by
  constructor <;> simp [he, hf]

theorem State.ReportInv.phaseError (hf : s.fatal = false) : s.phaseError.ReportInv := by
  have code : s.phaseError.errinfo.toNat ≤ 4 := (toNat_phaseError_errinfo s).trans_le (phaseCode_le _)
  constructor <;> simp [hf, -State.phaseError_errinfo, code]

theorem toNat_raiseErr_errinfo {c : ErrCode} {n : Nat} (hn : n ≤ 256) : (s.raiseErr c n).errinfo.toNat = n := by
  rw [State.raiseErr_errinfo, BitVec.toNat_ofNat]
  omega

/-- Validate's reports: the required length, or an illegal position below it (40_acquisition.md R111). -/
theorem State.ReportInv.badInput {req n : Nat} {legal : Byte → Bool} {e : List Bool} {c : ErrCode}
    (hf : s.fatal = false) (input : InputOf s i req legal e) (bad : validate s req legal = some (c, n)) :
    (s.raiseErr c n).ReportInv := by
  have small := req_le_of_inputOf input
  rcases validate_some.mp bad with ⟨_, rfl, rfl⟩ | ⟨_, rfl, below, _⟩
  · have info : (s.raiseErr .length n).errinfo.toNat = n := toNat_raiseErr_errinfo small
    have required := req_of_inputOf input
    constructor <;> simp [hf, -State.raiseErr_errinfo, info]
    simpa using required
  · have info : (s.raiseErr .alphabet n).errinfo.toNat = n := toNat_raiseErr_errinfo (by omega)
    constructor <;> simp [hf, -State.raiseErr_errinfo, info]
    omega

/-- The fatal entry reports a fatal code and 0 (R246). -/
theorem State.ReportInv.fatalEntry {c : ErrCode} (hc : c = .fatalRng ∨ c = .fatalInv) :
    (s.fatalEntry c).ReportInv := by
  rcases hc with rfl | rfl <;> constructor <;> simp

theorem State.ReportInv.command (h : s.ReportInv) (does : CommandDoes s i t) : t.ReportInv := by
  cases does with
  | dropped _ _ => exact h
  | noDice hf _ => exact .of_illegalCmd rfl hf
  | wrongPhase _ hf _ _ => exact .phaseError hf
  | badInput _ _ _ _ _ _ hf _ input bad => exact .badInput hf input bad
  | goodInput _ _ _ _ hf _ _ _ => exact .of_ok rfl rfl hf
  | exhausted _ _ _ => exact .fatalEntry (.inl rfl)
  | random _ hf _ _ => exact .of_ok rfl rfl hf
  | opened hf _ => exact .of_ok rfl rfl hf
  | aborted hf => exact .of_ok rfl rfl hf
  | sliced hf _ => exact .of_ok rfl rfl hf
  | finished hf _ => exact .of_ok rfl rfl hf

theorem State.ReportInv.clearPending (h : s.ReportInv) : s.clearPending.ReportInv := h.same rfl rfl rfl rfl

theorem State.ReportInv.completion (h : s.ReportInv) (does : CompletionDoes s t) : t.ReportInv := by
  cases does with
  | idle _ => exact h
  | droppedFatal _ _ _ => exact h.clearPending
  | selfCheck _ _ _ _ => exact (State.ReportInv.fatalEntry (.inr rfl)).clearPending
  | illegal _ _ _ hf _ _ => exact .of_illegalCmd rfl (by simpa using hf)
  | command _ _ _ _ _ _ _ _ does =>
    have checked : s.selfChecked.ReportInv := h.same (by simp) (by simp) (by simp) (by simp)
    exact (checked.command does).clearPending

/-- Settles O51: an access writes none of the three; a completion is one report, and reset reports E_OK. -/
theorem reportsStaySound : Obligations.ReportsStaySound := by
  unfold Obligations.ReportsStaySound
  intro s t h hstep
  cases step_kind hstep with
  | access _ _ _ keeps => exact h.same keeps.build keeps.err keeps.errinfo keeps.fatal
  | completion _ _ does =>
    have taken : (s.withSchedule s.schedule.tail).ReportInv := h.same rfl rfl rfl rfl
    exact taken.completion does
  | reset _ => exact .of_ok rfl rfl rfl

/-- Settles O50: the reset state reports E_OK and 0. -/
theorem reportsAreSoundAtReset : Obligations.ReportsAreSoundAtReset := by
  unfold Obligations.ReportsAreSoundAtReset
  exact .of_ok rfl rfl rfl

/-! ### The fatal state and reset -/

/-- Settles O44: with FATAL = 1 nothing is pending, so a completion finds nothing to complete, and writes are ignored. -/
theorem fatalStateIsLockedUntilReset : Obligations.FatalStateIsLockedUntilReset := by
  unfold Obligations.FatalStateIsLockedUntilReset
  constructor
  · intro s t inv hf not_reset hstep
    obtain ⟨_, nothing_pending, _⟩ := inv.fatal hf
    cases step_cases hstep with
    | elsewhere _ rest _ _ _ _ _ => exact .withSchedule s rest
    | read rest _ _ _ _ _ _ => exact State.SameBlock.logRead_statusDrawn (s.withSchedule rest) _ _
    | ignored rest _ _ _ _ _ => exact .withSchedule s rest
    | write _ _ _ _ _ _ _ _ _ live _ => simp [hf] at live
    | completion rest _ _ does =>
      cases does with
      | idle _ => exact .withSchedule s rest
      | droppedFatal c pending _ => simp [nothing_pending] at pending
      | selfCheck c pending _ _ => simp [nothing_pending] at pending
      | illegal c _ pending _ _ _ => simp [nothing_pending] at pending
      | command c _ _ pending _ _ _ _ _ => simp [nothing_pending] at pending
    | reset rest hs => exact absurd (nextEvent_of_schedule hs) not_reset
  · intro s rest off v inv hf hoff hal hs
    obtain ⟨_, nothing_pending, _⟩ := inv.fatal hf
    have idle : s.busy = false := by simp [State.busy, nothing_pending]
    rw [step_write hs (admittedAt_four hoff hal) idle, if_pos hf]
    rfl

/-- Settles O45: the reset event is taken in every state. -/
theorem resetRestoresEveryRegister : Obligations.ResetRestoresEveryRegister := by
  unfold Obligations.ResetRestoresEveryRegister
  intro s rest hs
  rw [step_eq_runEvent hs]
  rfl

end Sys2Proof.Machine
end

section
/-! The commands across their outcomes (30_encoding.md R90; 60_exceptions.md R242 to R247; 45_session.md R212, R216,
R220): what an error leaves, what each command may write, and what its completion adds. -/

namespace Sys2Proof.Machine

variable {s t : State} {i : Instr} {c : Word} {req n : Nat} {legal : Byte → Bool} {e : List Bool}

/-! ### Validate -/

/-- Settles O8: the three clauses are `validate_some` at each code and `validate_none`. -/
theorem validateReportsTheFirstError : Obligations.ValidateReportsTheFirstError := by
  unfold Obligations.ValidateReportsTheFirstError
  intro s req legal
  refine ⟨?_, fun k => ?_, validate_none⟩
  · rw [validate_some]; simp
  · rw [validate_some]; simp

/-! ### Recoverable errors -/

/-- Settles O28: a command that reports a recoverable code is dropped or a `raiseErr`; the others report E_OK or a fatal
code. -/
theorem recoverableErrorsChangeOnlyTheReport : Obligations.RecoverableErrorsChangeOnlyTheReport := by
  unfold Obligations.RecoverableErrorsChangeOnlyTheReport
  intro i s t hexec recoverable
  cases exec_cases hexec with
  | dropped _ _ => rfl
  | noDice _ _ => rfl
  | wrongPhase _ _ _ _ => rfl
  | badInput _ _ _ _ _ _ _ _ _ _ => rfl
  | _ => simp at recoverable

/-! ### Frames -/

/-- Only the zeroizing commands write INBUF, and they write zeros. -/
theorem CommandDoes.inbuf_cases (h : CommandDoes s i t) :
    t.inbuf = s.inbuf ∨ (t.inbuf = [] ∧ i ≠ .derive ∧ i ≠ .finish) := by
  cases h with
  | goodInput _ _ _ _ _ _ input _ => exact .inr ⟨rfl, by cases input <;> simp⟩
  | exhausted _ _ _ => exact .inr ⟨rfl, by simp⟩
  | random _ _ _ _ => exact .inr ⟨rfl, by simp⟩
  | opened _ _ => exact .inr ⟨rfl, by simp⟩
  | aborted _ => exact .inr ⟨rfl, by simp⟩
  | _ => exact .inl rfl

theorem CommandDoes.frame_not_acqRng (h : CommandDoes s i t) (hi : i ≠ .acqRng) :
    t.rngReady = s.rngReady ∧ t.rngRequests = s.rngRequests ∧ t.fatal = s.fatal := by
  cases h with
  | exhausted _ _ _ => exact absurd rfl hi
  | random _ _ _ _ => exact absurd rfl hi
  | _ => exact ⟨rfl, rfl, rfl⟩

theorem CommandDoes.frame_openSession (h : CommandDoes s .openSession t) :
    t.ebuf = s.ebuf ∧ t.csum = s.csum ∧ t.idx = s.idx ∧ t.wsel = s.wsel := by
  cases h with
  | goodInput _ _ _ _ _ _ input _ => cases input
  | _ => exact ⟨rfl, rfl, rfl, rfl⟩

theorem CommandDoes.frame_acquire (h : CommandDoes s i t)
    (hi : i = .acqRaw ∨ i = .acqCoin ∨ i = .acqDice ∨ (i = .acqRng ∧ t.fatal = false)) :
    t.idx = s.idx ∧ t.wsel = s.wsel := by
  cases h with
  | exhausted _ _ _ => simp at hi
  | aborted _ => simp at hi
  | sliced _ _ => simp at hi
  | finished _ _ => simp at hi
  | _ => exact ⟨rfl, rfl⟩

theorem idxAt_congr (h : t.idx = s.idx) (j : Nat) : t.idxAt j = s.idxAt j := by
  unfold State.idxAt
  rw [h]

theorem CommandDoes.frame_derive (h : CommandDoes s .derive t) :
    t.inlen = s.inlen ∧ t.ebuf = s.ebuf ∧ t.csum = s.csum ∧ t.wsel = s.wsel ∧
      ∀ j, wordCount s.build.w ≤ j → t.idxAt j = s.idxAt j := by
  cases h with
  | goodInput _ _ _ _ _ _ input _ => cases input
  | sliced _ _ =>
    exact ⟨rfl, rfl, rfl, rfl, fun j => idxAt_of_derived (b := s.build) (e := s.ebuf) (k := s.csum) (by simp)⟩
  | _ => exact ⟨rfl, rfl, rfl, rfl, fun j _ => idxAt_congr (by simp) j⟩

theorem CommandDoes.frame_finish (h : CommandDoes s .finish t) : t.inlen = s.inlen := by
  cases h with
  | goodInput _ _ _ _ _ _ input _ => cases input
  | _ => rfl

/-- Settles O29: one frame lemma per row of the table. -/
theorem commandsWriteOnlyWhatTheTableLists : Obligations.CommandsWriteOnlyWhatTheTableLists := by
  unfold Obligations.CommandsWriteOnlyWhatTheTableLists
  intro i s t hexec
  have does := exec_cases hexec
  have inbuf := does.inbuf_cases
  refine ⟨does.frame, does.frame_not_acqRng, ?_, does.frame_acquire, ?_, fun hi => ⟨?_, fun k => ?_⟩, fun k => ?_⟩
  · rintro rfl
    exact does.frame_openSession
  · rintro rfl
    exact does.frame_derive
  · rcases hi with rfl | rfl
    · exact does.frame_derive.1
    · exact does.frame_finish
  · have kept : t.inbuf = s.inbuf := by
      rcases inbuf with kept | ⟨_, not_derive, not_finish⟩
      · exact kept
      · exact absurd hi (not_or_intro not_derive not_finish)
    rw [State.inbufByte, State.inbufByte, kept]
  · rcases inbuf with kept | ⟨zero, _⟩
    · exact .inl (by rw [State.inbufByte, State.inbufByte, kept])
    · exact .inr (by rw [State.inbufByte, zero, Memory.read_nil])

/-! ### ABORT and OPEN -/

/-- Settles O2: ABORT's one outcome, and what of it the invariants already hold in IDLE. -/
theorem abortZeroizesFromEveryPhase : Obligations.AbortZeroizesFromEveryPhase := by
  unfold Obligations.AbortZeroizesFromEveryPhase
  refine ⟨fun _ => decode_encode (i := .abort) nofun, fun s hf => exec_abort hf, fun s => exec_of_fatal .abort, ?_⟩
  intro s inv hf hp hw
  obtain ⟨inlen, inbuf⟩ := inv.input (by simp [hp])
  obtain ⟨ebuf, csum⟩ := inv.entropy (by simp [hp, Phase.holdsEntropy])
  have idx := inv.indices (by simp [hp])
  have already : s.clearInput.clearPhrase.succeed .idle = { s with err := .ok, errinfo := 0 } := by
    cases s
    simp_all [State.clearInput, State.clearPhrase, State.succeed]
  rw [exec_abort hf, already]

/-- OPEN between sessions: the input was zero already, and nothing of a session is left (R220). -/
theorem State.Inv.clean_after_open (inv : s.Inv) (hf : s.fatal = false) (hp : s.phase = .idle ∨ s.phase = .done)
    (hopen : exec .openSession s = .next t) :
    s.inbuf = [] ∧ s.inlen = 0 ∧ t.phase = .collecting ∧ t.inbuf = [] ∧ t.inlen = 0 ∧
      t.ebuf = zeroEntropy s.build ∧ t.csum = 0 ∧ t.idx = zeroIdx := by
  rw [exec_openSession hf, if_pos hp] at hopen
  cases hopen
  obtain ⟨inlen, inbuf⟩ := inv.input (by rcases hp with hp | hp <;> simp [hp])
  obtain ⟨ebuf, csum⟩ := inv.entropy (by rcases hp with hp | hp <;> simp [hp, Phase.holdsEntropy])
  exact ⟨inbuf, inlen, rfl, rfl, rfl, ebuf, csum, inv.indices (by rcases hp with hp | hp <;> simp [hp])⟩

/-- Settles O52: IDLE and DONE promise that input, entropy and indices are zero, and OPEN leaves them so. -/
theorem sessionsAreIndependent : Obligations.SessionsAreIndependent := by
  unfold Obligations.SessionsAreIndependent
  intro s s' t t' inv inv' hb hf hf' hp hp' hopen hopen'
  obtain ⟨inbuf, inlen, phase, inbuf₁, inlen₁, ebuf, csum, idx⟩ := inv.clean_after_open hf hp hopen
  obtain ⟨inbuf', inlen', phase', inbuf₁', inlen₁', ebuf', csum', idx'⟩ := inv'.clean_after_open hf' hp' hopen'
  exact ⟨inbuf, inbuf', inlen, inlen', phase, phase', inbuf₁, inbuf₁', inlen₁, inlen₁', ebuf, hb ▸ ebuf', csum, csum',
    idx, idx'⟩

/-! ### Completions -/

theorem CompletionDoes.pending_eq (h : CompletionDoes s t) : t.pending = none := by
  cases h with
  | idle nothing => exact nothing
  | _ => rfl

theorem CompletionDoes.schedule_eq (h : CompletionDoes s t) : t.schedule = s.schedule := by
  cases h with
  | idle _ => rfl
  | droppedFatal _ _ _ => rfl
  | selfCheck _ _ _ _ => simp
  | illegal _ _ _ _ _ _ => simp
  | command _ _ _ _ _ _ _ _ does =>
    obtain ⟨_, _, schedule, _⟩ := does.frame
    simp [schedule]

/-- Settles O26: a completion never stops (`complete_does`), and each thing it can do leaves nothing pending. -/
theorem completionEmptiesPending : Obligations.CompletionEmptiesPending := by
  unfold Obligations.CompletionEmptiesPending
  intro s completion
  obtain ⟨t, ht, does⟩ := complete_does (s.withSchedule s.schedule.tail)
  have idle := does.pending_eq
  exact ⟨t, (step_completion completion).trans ht, idle, by simp [State.busy, idle], does.schedule_eq⟩

/-- Settles O24: without self-check failures a completion is the decoded command and PENDING cleared. -/
theorem stepRunsTheDecodedCommand : Obligations.StepRunsTheDecodedCommand := by
  unfold Obligations.StepRunsTheDecodedCommand
  intro s c i completion hp hf ha hd
  let u := s.withSchedule s.schedule.tail
  obtain ⟨t, ht, _⟩ := exec_does i u
  have unchecked : exec i u.selfChecked = .next t := by rwa [State.selfChecked_of_not_allowed (s := u) ha]
  refine ⟨t, ht, (step_completion completion).trans ?_⟩
  exact complete_of_legal (s := u) hp hf (State.spuriousFatal_of_not_allowed ha) hd unchecked

/-! ### Self-checks -/

/-- Where the build admits a self-check failure, the free value chooses between the fatal entry and the rule (R247). -/
theorem complete_of_allowed (hp : s.pending = some c) (hf : s.fatal = false)
    (ha : s.build.allowSpuriousFatal = true) :
    complete s = if Config.selfCheckFails s.draws = true then .next (s.drawn.fatalEntry .fatalInv).clearPending
      else finishCompletion (runCommand s.drawn c) := by
  simp [complete, hp, hf, State.spuriousFatal, State.selfChecked, ha]

/-- Only a failed self-check reports E_FATAL_INV (R247). -/
theorem CommandDoes.err_eq_or_ne_fatalInv (h : CommandDoes s i t) : t.err = s.err ∨ t.err ≠ .fatalInv := by
  cases h with
  | dropped _ _ => exact .inl rfl
  | badInput _ _ _ _ _ _ _ _ _ bad => exact .inr (by rcases code_of_validate_some bad with rfl | rfl <;> simp)
  | _ => exact .inr (by simp)

/-- Settles O27: the completion by the free value (`complete_of_allowed`), and the codes every step without one can
leave. -/
theorem selfCheckFailureReplacesTheRule : Obligations.SelfCheckFailureReplacesTheRule := by
  unfold Obligations.SelfCheckFailureReplacesTheRule
  refine ⟨fun s c i completion hp hf ha hd => ?_, fun s c w completion hp hf ha hd => ?_, fun s t ha hstep hinv => ?_⟩
  · let u := s.withSchedule s.schedule.tail
    obtain ⟨t, ht, _⟩ := exec_does i u.drawn
    have rule : runCommand u.drawn c = .next t := by
      unfold runCommand
      rw [show decode u.drawn.build.dicePresent c = .legal i from hd]
      exact ht
    refine ⟨t, ht, ?_⟩
    rw [step_completion completion, complete_of_allowed (s := u) hp hf ha, rule]
    rfl
  · let u := s.withSchedule s.schedule.tail
    have rule : runCommand u.drawn c = .next (u.drawn.illegalCommand c) := runCommand_of_illegal hd
    rw [step_completion completion, complete_of_allowed (s := u) hp hf ha, rule, State.illegalCommand_eq]
    rfl
  · cases step_kind hstep with
    | access _ _ _ keeps => exact keeps.err ▸ hinv
    | reset _ => simp at hinv
    | completion _ _ does =>
      cases does with
      | idle _ => exact hinv
      | droppedFatal _ _ _ => exact hinv
      | selfCheck _ _ _ fails =>
        rw [State.spuriousFatal_of_not_allowed (by exact ha)] at fails
        cases fails
      | illegal _ _ _ _ _ _ => simp at hinv
      | command _ _ u _ _ _ _ _ does =>
        rcases does.err_eq_or_ne_fatalInv with same | other
        · rw [State.selfChecked_err] at same
          exact same ▸ hinv
        · exact absurd hinv other

end Sys2Proof.Machine
end

section
/-! Register accesses, offset by offset (45_session.md R214, R215, R222; 44_indexer.md R193, R194): what a 4-byte write
does, what a 4-byte read returns, and what no read shows or changes. -/

namespace Sys2Proof.Machine

variable {s t : State} {e : Event} {rest : List Event} {off addr n : Nat} {v : Word} {m : Memory} {bits : List Bool}

/-! ### Writes -/

/-- Settles O36: the write's effect is `writeReg` at the register the offset names; the other offsets name none that a
host writes. -/
theorem registerWrites : Obligations.RegisterWrites := by
  unfold Obligations.RegisterWrites
  intro s rest off v hf hb hs
  have written (hoff : off < 0x1000) (hal : off % 4 = 0) :
      step s = .next (writeReg (s.withSchedule rest) (regAt off) 4 v) := by
    rw [step_write hs (admittedAt_four hoff hal) hb, if_neg (by simp [hf])]
  refine ⟨?_, ?_, ?_, ?_, ?_⟩
  · rintro rfl
    exact written (by decide) rfl
  · rintro rfl hp
    rw [written (by decide) rfl]
    exact congrArg _ (if_pos hp)
  · rintro rfl hp
    rw [written (by decide) rfl]
    exact congrArg _ (if_neg hp)
  · rintro rfl
    exact written (by decide) rfl
  · intro hoff hal unlisted not_inbuf
    rw [written hoff hal]
    have does := writeReg_does (s.withSchedule rest) off 4 v (admittedAt_four hoff hal)
    generalize writeReg (s.withSchedule rest) (regAt off) 4 v = t at does ⊢
    cases does with
    | nothing => rfl
    | command hreg => simp [hreg] at unlisted
    | inlen hreg _ => simp [hreg] at unlisted
    | wsel hreg => simp [hreg] at unlisted
    | inbuf hlo hhi _ => omega

/-! ### Reads -/

theorem step_register_read (hs : s.schedule = .read (s.build.base + off) 4 :: rest) (hb : s.busy = false)
    (hoff : off < 0x1000) (hal : off % 4 = 0) :
    step s = .next { s with schedule := rest, readLog := readReg s (regAt off) :: s.readLog } := by
  rw [step_read hs (admittedAt_four hoff hal) (.inl hb), statusDrawn_of_not_busy (s := s.withSchedule rest) hb,
    readReg_congr (.withSchedule s rest) hb]
  rfl

theorem readReg_idx_of_lt {i : Nat} (h : i < wordCount s.build.w) : readReg s (.idx i) = (s.idxAt i).setWidth 32 :=
  if_pos h

theorem readReg_idx_of_ge {i : Nat} (h : wordCount s.build.w ≤ i) : readReg s (.idx i) = 0 :=
  if_neg (Nat.not_lt.mpr h)

theorem regAt_idx_of_index {i : Nat} (h : i < 24) : regAt (0x100 + 4 * i) = .idx i := by
  rw [regAt_idx (by omega)]
  congr 1
  omega

theorem regAt_word_of_index (h : n < 4) : regAt (0x020 + 4 * n) = .word n := by
  rw [regAt_word (by omega)]
  congr 1
  omega

theorem regAt_unlisted (h : (0x030 ≤ off ∧ off < 0x100) ∨ 0x160 ≤ off) :
    regAt off = .reserved ∨ ∃ k, regAt off = .inbuf k := by
  by_cases hin : 0x400 ≤ off ∧ off < 0x500
  · exact .inr ⟨_, regAt_inbuf hin⟩
  · refine .inl ?_
    unfold regAt
    iterate 11 rw [if_neg (by omega)]

/-- Settles O38: a read hands out `readReg` of the register at its offset. -/
theorem registerReads : Obligations.RegisterReads := by
  unfold Obligations.RegisterReads
  intro s rest off hb hoff hal hs
  refine ⟨readReg s (regAt off), step_register_read hs hb hoff hal, ?_, ?_, ?_, ?_, ?_, ?_, ?_, ?_, ?_, ?_⟩
  · rintro rfl; rfl
  · rintro rfl; rfl
  · rintro rfl; rfl
  · rintro rfl
    rw [← toNat_statusWord_of_not_busy hb, ← statusRead_of_not_busy hb]
    rfl
  · rintro rfl
    exact BitVec.toNat_setWidth_of_le (by decide)
  · rintro rfl
    exact BitVec.toNat_setWidth_of_le (by decide)
  · rintro rfl
    exact BitVec.toNat_setWidth_of_le (by decide)
  · rintro rfl
    exact BitVec.toNat_setWidth_of_le (by decide)
  · rintro i hi rfl
    rw [regAt_idx_of_index hi]
    split
    next below => rw [readReg_idx_of_lt below, BitVec.toNat_setWidth_of_le (by decide)]
    next above => rw [readReg_idx_of_ge (not_lt.mp above)]; rfl
  · intro unlisted
    rcases regAt_unlisted unlisted with reg | ⟨k, reg⟩ <;> rw [reg] <;> rfl

/-! ### The phrase's registers -/

/-- Lane `j` of WORDn is character 4n + j, or 0 past the word's end (44_indexer.md R193). -/
theorem lane_packChars (w : List Byte) (n : Nat) {j : Nat} (h : j < 4) :
    (packChars w n).extractLsb' (8 * j) 8 = (w[4 * n + j]?).getD 0 := by
  rw [packChars, lane_fourBytes _ _ _ _ j h, ← List.getD_eq_getElem?_getD]
  interval_cases j <;> rfl

theorem packChars_of_length_le {w : List Byte} (h : w.length ≤ 4 * n) : packChars w n = 0 := by
  simp only [packChars, List.getD_eq_getElem?_getD]
  rw [List.getElem?_eq_none (by omega), List.getElem?_eq_none (by omega), List.getElem?_eq_none (by omega),
    List.getElem?_eq_none (by omega)]
  rfl

/-- A dictionary word has at most WORD_BYTES characters (00_scope.md R12). -/
theorem length_dictWord_le {b : Build} (h : DictOk b) (x : BitVec 11) : (dictWord b x.toNat).length ≤ b.wordBytes := by
  have ok := h.1 x.toNat x.isLt
  simp only [wordOk, Bool.and_eq_true, decide_eq_true_eq] at ok
  exact ok.1.2

theorem wordWindow_of_shown (hp : s.phase = .derived) (hw : s.wsel.toNat < wordCount s.build.w) (n : Nat) :
    wordWindow s n = packChars (dictWord s.build (s.idxAt s.wsel.toNat).toNat) n :=
  if_neg (not_or_intro (not_not_intro hp) (Nat.not_le.mpr hw))

/-- Settles O17: the window's two cases, and the lanes of the packed characters. -/
theorem wordWindowShowsTheSelectedWord : Obligations.WordWindowShowsTheSelectedWord := by
  unfold Obligations.WordWindowShowsTheSelectedWord
  intro s rest n hn hb hs
  have value : readReg s (regAt (0x020 + 4 * n)) = wordWindow s n := by rw [regAt_word_of_index hn]; rfl
  have read := step_register_read hs hb (by omega) (by omega)
  rw [value] at read
  refine ⟨wordWindow s n, read, fun hidden => if_pos hidden, fun hp hw j hj => ?_, fun dict past => ?_⟩
  · rw [wordWindow_of_shown hp hw, lane_packChars _ _ hj]
  · by_cases hidden : s.phase ≠ .derived ∨ wordCount s.build.w ≤ s.wsel.toNat
    · exact if_pos hidden
    · rw [wordWindow, if_neg hidden]
      exact packChars_of_length_le ((length_dictWord_le dict _).trans past)

/-- Settles O18: outside DERIVED the window is closed, and IDX is zero. -/
theorem phraseReadableOnlyInDerived : Obligations.PhraseReadableOnlyInDerived := by
  unfold Obligations.PhraseReadableOnlyInDerived
  intro s rest off inv hp hb hal range hs
  have hidden : readReg s (regAt off) = 0 := by
    rcases range with idx | word
    · rw [regAt_idx idx]
      exact readReg_idx_of_zero (inv.indices hp) _
    · rw [regAt_word word]
      exact readReg_word_of_not_derived hp _
  rw [step_register_read hs hb (by omega) hal, hidden]

/-! ### What a read leaves -/

theorem step_read_eq (hs : s.schedule = .read addr n :: rest) : step s = hostRead (s.withSchedule rest) addr n :=
  step_eq_runEvent hs

/-- A read passes by the block, or logs the register's value. -/
theorem step_read_cases (hs : s.schedule = .read addr n :: rest) (h : step s = .next t) :
    (touchesWindow s.build addr n = false ∧ t = s.withSchedule rest) ∨
    (touchesWindow s.build addr n = true ∧ t =
      ((s.withSchedule rest).statusDrawn (regAt (addr - s.build.base))).logRead
        (readReg (s.withSchedule rest) (regAt (addr - s.build.base)))) := by
  rw [step_read_eq hs] at h
  rcases onWindow_cases h with outside | ⟨inside, _, _, read⟩
  · exact .inl outside
  · exact .inr ⟨inside, read⟩

theorem step_read_keeps (hs : s.schedule = .read addr n :: rest) (h : step s = .next t) :
    s.SameBlock t ∧ t.rngReady = s.rngReady ∧ t.rngRequests = s.rngRequests ∧ t.schedule = rest := by
  rcases step_read_cases hs h with ⟨_, rfl⟩ | ⟨_, rfl⟩
  · exact ⟨.withSchedule s rest, rfl, rfl, rfl⟩
  · exact ⟨.logRead_statusDrawn (s.withSchedule rest) _ _, by simp⟩

/-- What the host gets from a read when not busy: a function of the block and the location. -/
theorem readLog_of_step_read (hs : s.schedule = .read addr n :: rest) (hb : s.busy = false) (h : step s = .next t) :
    t.readLog = if touchesWindow s.build addr n then readReg s (regAt (addr - s.build.base)) :: s.readLog
      else s.readLog := by
  rcases step_read_cases hs h with ⟨outside, rfl⟩ | ⟨inside, rfl⟩
  · simp [outside]
  · simp [inside, readReg_congr (.withSchedule s rest) hb]

/-- Settles O39: a read leaves the block as it is, and what the host gets is a function of the block. -/
theorem readsChangeNothing : Obligations.ReadsChangeNothing := by
  unfold Obligations.ReadsChangeNothing
  refine ⟨fun s t addr n rest => step_read_keeps, fun s t u addr n rest hs hb hstep hstep' => ?_⟩
  obtain ⟨same, _, _, schedule⟩ := step_read_keeps hs hstep
  have value := readReg_congr same hb (regAt (addr - s.build.base))
  have first := readLog_of_step_read hs hb hstep
  obtain ⟨build, _, _, _, _, _, _, _, _, _, _, pending⟩ := same
  have idle : t.busy = false := by rwa [State.busy, pending]
  have second := readLog_of_step_read schedule idle hstep'
  rw [build, value] at second
  split at first
  next inside => rw [if_pos inside] at second; exact .inr ⟨_, first, first ▸ second⟩
  next outside => rw [if_neg outside] at second; exact .inl (second.trans first)

/-! ### What a read does not show -/

/-- The state with other staged input and other entropy. -/
def State.withHidden (s : State) (m : Memory) (bits : List Bool) : State := { s with inbuf := m, ebuf := bits }

theorem readReg_withHidden (r : Reg) : readReg (s.withHidden m bits) r = readReg s r := by
  cases r <;> rfl

theorem statusDrawn_withHidden (r : Reg) :
    (s.withHidden m bits).statusDrawn r = (s.statusDrawn r).withHidden m bits := by
  unfold State.statusDrawn
  rw [show (s.withHidden m bits).busy = s.busy from rfl]
  split <;> rfl

theorem onWindow_outside {ok : Bool} (h : touchesWindow s.build addr n = false) : onWindow s addr n ok t = .next s := by
  simp [onWindow, h]

theorem onWindow_inside {ok : Bool} (h : touchesWindow s.build addr n = true) (ha : admitted s.build addr n = true)
    (hb : s.busy = true → ok = true) : onWindow s addr n ok t = .next t := by
  have allowed : (s.busy && !ok) = false := by cases hbusy : s.busy <;> simp_all
  simp [onWindow, h, ha, allowed]

theorem hostRead_withHidden (h : hostRead s addr n = .next t) :
    hostRead (s.withHidden m bits) addr n = .next (t.withHidden m bits) := by
  rcases onWindow_cases h with ⟨outside, rfl⟩ | ⟨inside, adm, allowed, rfl⟩
  · exact onWindow_outside outside
  · refine (onWindow_inside (s := s.withHidden m bits) inside adm allowed).trans ?_
    rw [readReg_withHidden, statusDrawn_withHidden]
    rfl

/-- Settles O40: no register read looks at INBUF or EBUF (`readReg_withHidden`). -/
theorem stagedInputAndEntropyCannotBeRead : Obligations.StagedInputAndEntropyCannotBeRead := by
  unfold Obligations.StagedInputAndEntropyCannotBeRead
  intro s t m bits addr n rest hs hstep
  rw [step_read_eq hs] at hstep
  exact (step_read_eq (s := s.withHidden m bits) hs).trans (hostRead_withHidden hstep)

/-! ### While busy -/

theorem regAt_ne_status (h : off ≠ 0x00C) : regAt off ≠ .status := by
  simp [regAt, ite_eq_iff, h]

theorem step_read_busy (hs : s.schedule = .read (s.build.base + off) n :: rest) (ha : admittedAt off n = true)
    (hb : s.busy = true) (hoff : off ≠ 0x00C) : step s = .refused .busyHazard := by
  have not_status : decide (regAt (s.build.base + off - s.build.base) = .status) = false := by
    rw [Nat.add_sub_cancel_left]
    exact decide_eq_false (regAt_ne_status hoff)
  rw [step_read_eq hs, hostRead, State.withSchedule_build, not_status]
  exact onWindow_busy (s := s.withSchedule rest) ha hb

/-- Settles O42: `onWindow` refuses a read elsewhere and every write, and lets the STATUS read through. -/
theorem accessesWhileBusyAreRefused : Obligations.AccessesWhileBusyAreRefused := by
  unfold Obligations.AccessesWhileBusyAreRefused
  intro s e rest off n hb hs hoff listed
  have ha := (admittedAt_iff hoff).mpr listed
  constructor
  · rintro (⟨rfl, not_status⟩ | ⟨v, rfl⟩)
    · exact step_read_busy hs ha hb not_status
    · exact step_write_busy hs ha hb
  · rintro rfl rfl
    exact ⟨_, step_read hs ha (.inr rfl)⟩

end Sys2Proof.Machine
end

section
/-! What the indices say (44_indexer.md R191, R192, R196; 41_dice_fold.md R148): eleven bits each of the combined buffer,
so they determine the entropy, depend on it alone, and after ACQ_DICE are the folds of the rolls. -/

namespace Sys2Proof.Machine

variable {s t u : State} {b : Build} {e : List Bool} {c : BitVec 8} {i : Nat}

/-! ### The slices of the combined buffer -/

theorem length_combined_eq (c : BitVec 8) (he : e.length = entBits b.w) :
    (combined b e c).length = 11 * wordCount b.w := by
  rw [length_combined, he, ← totalBits_eq, totalBits]

/-- A group ends inside the buffer, so its slice has eleven bits and the index gives them back. -/
theorem seqOf_sliceIndex (he : e.length = entBits b.w) (hi : i < wordCount b.w) :
    seqOf 11 (sliceIndex (combined b e c) i).toNat = slice (combined b e c) (11 * i) 11 := by
  have inside := length_combined_eq c he
  rw [toNat_sliceIndex]
  apply seqOf_uint_of_length
  rw [length_slice, inside]
  omega

theorem getElem?_slice {l : List Bool} {a n j : Nat} (hj : j < n) : (slice l a n)[j]? = l[a + j]? := by
  rw [slice, List.getElem?_take_of_lt hj, List.getElem?_drop]

theorem getElem?_seqOf {n v j : Nat} (hj : j < n) : (seqOf n v)[j]? = some (v.testBit (n - 1 - j)) := by
  simp [seqOf, hj]

/-- Bit 10 - j of an index is bit j of its group. -/
theorem getLsbD_sliceIndex (he : e.length = entBits b.w) (hi : i < wordCount b.w) {j : Nat} (hj : j ≤ 10) :
    some ((sliceIndex (combined b e c) i).getLsbD (10 - j)) = (combined b e c)[11 * i + j]? := by
  have within : j < 11 := by omega
  rw [← getElem?_slice within, ← seqOf_sliceIndex he hi, getElem?_seqOf within]
  rfl

/-- The groups cover the buffer exactly. -/
theorem flatMap_sliceIndex (he : e.length = entBits b.w) :
    (List.range (wordCount b.w)).flatMap (fun i => seqOf 11 (sliceIndex (combined b e c) i).toNat) =
      combined b e c := by
  have groups : ∀ i ∈ List.range (wordCount b.w),
      seqOf 11 (sliceIndex (combined b e c) i).toNat = slice (combined b e c) (11 * i) 11 :=
    fun i hi => seqOf_sliceIndex he (List.mem_range.mp hi)
  rw [List.flatMap_congr groups, flatMap_slice, List.take_of_length_le (length_combined_eq c he).le]

theorem uint_seqOf_csum (hc : c.toNat < 2 ^ csumBits b.w) : uint (seqOf (csumBits b.w) c.toNat) = c.toNat := by
  rw [uint_seqOf, Nat.mod_eq_of_lt hc]

/-- The last index: the entropy bits that no other group holds, above CSUM. -/
theorem toNat_last_sliceIndex (he : e.length = entBits b.w) (hc : c.toNat < 2 ^ csumBits b.w) :
    (sliceIndex (combined b e c) (wordCount b.w - 1)).toNat =
      uint (e.drop (entBits b.w - (11 - csumBits b.w))) * 2 ^ csumBits b.w + c.toNat := by
  have words := wordCount_eq b.w
  have entropy := entBits_eq b.w
  have pos := csumBits_pos b.w
  have few := csumBits_le b.w
  have start : 11 * (wordCount b.w - 1) = entBits b.w - (11 - csumBits b.w) := by omega
  rw [toNat_sliceIndex, slice_eq_drop (by rw [length_combined_eq c he]; omega), start, combined,
    List.drop_append_of_le_length (by omega), uint_append, length_seqOf, uint_seqOf_csum hc]

/-! ### After DERIVE -/

theorem idxAt_derived_of_lt {old : Vector (BitVec 11) 24} (h : u.idx = deriveIdx b e c old) (hi : i < wordCount b.w) :
    u.idxAt i = sliceIndex (combined b e c) i := by
  have inside : i < 24 := hi.trans_le (wordCount_le _)
  rw [State.idxAt, dif_pos inside, ← getElem_deriveIdx_of_lt (old := old) inside hi]
  simp [h]

theorem idxAt_after_derive (hf : s.fatal = false) (hp : s.phase = .csumAppended) (hexec : exec .derive s = .next u)
    (hi : i < wordCount s.build.w) : u.idxAt i = sliceIndex (combined s.build s.ebuf s.csum) i := by
  rw [exec_derive_slices hf hp] at hexec
  cases hexec
  exact idxAt_derived_of_lt (old := s.idx) (by simp) hi

theorem flatMap_idxAt {old : Vector (BitVec 11) 24} (h : u.idx = deriveIdx b e c old) (he : e.length = entBits b.w) :
    (List.range (wordCount b.w)).flatMap (fun i => seqOf 11 (u.idxAt i).toNat) = combined b e c := by
  have registers : ∀ i ∈ List.range (wordCount b.w),
      seqOf 11 (u.idxAt i).toNat = seqOf 11 (sliceIndex (combined b e c) i).toNat :=
    fun i hi => by rw [idxAt_derived_of_lt h (List.mem_range.mp hi)]
  rw [List.flatMap_congr registers, flatMap_sliceIndex he]

/-- Settles O11: each clause is the matching fact about the slices of the combined buffer. -/
theorem slicingFacts : Obligations.SlicingFacts := by
  unfold Obligations.SlicingFacts
  intro s t inv hf hp hexec
  have full := inv.width
  have idx {i : Nat} (hi : i < wordCount s.build.w) := idxAt_after_derive hf hp hexec hi
  rw [exec_derive_slices hf hp] at hexec
  cases hexec
  refine ⟨⟨rfl, flatMap_idxAt rfl full⟩, fun i hi j hj => ?_, fun i hi => ⟨?_, ?_⟩, fun i hi => ?_, ?_⟩
  · rw [idx hi]
    exact getLsbD_sliceIndex full hi hj
  · rw [idx hi, toNat_sliceIndex]
  · exact Nat.le_of_lt_succ (BitVec.isLt _)
  · have below : i < wordCount s.build.w := by omega
    rw [idx below, seqOf_sliceIndex full below, combined, slice_append_left (full ▸ group_within_entropy hi)]
  · have pos := wordCount_pos s.build.w
    rw [idx (by omega), toNat_last_sliceIndex full inv.csumFits]

/-- Settles O12: the indices give back the combined buffer, which splits at ENT_BITS. -/
theorem indicesDetermineTheEntropy : Obligations.IndicesDetermineTheEntropy := by
  unfold Obligations.IndicesDetermineTheEntropy
  intro s t inv inv' hb hp hp' agree
  have buffer := flatMap_idxAt (inv.idxIs hp) inv.width
  have buffer' := flatMap_idxAt (inv'.idxIs hp') inv'.width
  rw [← hb] at buffer'
  have same : combined s.build s.ebuf s.csum = combined s.build t.ebuf t.csum := by
    rw [← buffer, ← buffer']
    exact List.flatMap_congr fun i hi => by rw [agree i (List.mem_range.mp hi)]
  have lengths : s.ebuf.length = t.ebuf.length := by rw [inv.width, inv'.width, hb]
  obtain ⟨ebuf, csum⟩ := List.append_inj same lengths
  have fits' : t.csum.toNat < 2 ^ csumBits s.build.w := hb ▸ inv'.csumFits
  refine ⟨ebuf, BitVec.eq_of_toNat_eq ?_⟩
  rw [← uint_seqOf_csum inv.csumFits, csum, uint_seqOf_csum fits']

/-! ### Equal entropy, equal phrase -/

/-- At W = 24 DERIVE writes every register, so the old ones do not matter. -/
theorem deriveIdx_w24 (hw : b.w = .w24) (old old' : Vector (BitVec 11) 24) :
    deriveIdx b e c old = deriveIdx b e c old' := by
  ext i hi
  have below : i < wordCount b.w := by rw [hw]; exact hi
  rw [getElem_deriveIdx_of_lt hi below, getElem_deriveIdx_of_lt hi below]

theorem phrase_congr (hb : t.build = s.build) (hi : t.idx = s.idx) : t.phrase = s.phrase := by
  simp only [State.phrase, hb, idxAt_congr hi]

/-- A command that leaves a block in CSUM_APPENDED leaves it unlocked, with fresh indices and EBUF's own checksum. -/
theorem csumAppended_after {j : Instr} (inv : s.Inv) (hexec : exec j s = .next t) (hp : t.phase = .csumAppended) :
    t.build = s.build ∧ t.fatal = false ∧ t.idx = zeroIdx ∧ t.csum.toNat = checksum s.build t.ebuf := by
  have does := exec_cases hexec
  have inv' := inv.command does
  have build : t.build = s.build := does.frame.1
  have live : t.fatal = false := by
    by_contra locked
    have idle : t.phase = .idle := (inv'.fatal (by simpa using locked)).1
    simp [hp] at idle
  have fresh : t.idx = zeroIdx := inv'.indices (by simp [hp])
  exact ⟨build, live, fresh, build ▸ inv'.csumIs (by simp [hp, Phase.holdsEntropy])⟩

/-- At W = 24 what DERIVE makes of a commit is a function of the entropy and the build. -/
theorem exec_derive_commit_w24 (hw : s.build.w = .w24) (hf : s.fatal = false) (e : List Bool) :
    ∃ u, exec .derive (s.commit e) = .next u ∧ u.phase = .derived ∧
      u.idx = deriveIdx s.build e (BitVec.ofNat 8 (checksum s.build e)) zeroIdx :=
  ⟨_, exec_derive_slices (s := s.commit e) hf rfl, rfl, deriveIdx_w24 hw _ _⟩

theorem diceEncode_congr {w : Nat} {r r' : Nat → Nat} (h : ∀ k < 4 * (w - 1) + 3, r k = r' k) :
    diceEncode w r = diceEncode w r' := by
  have groups : ∀ g ∈ List.range (w - 1),
      seqOf 11 (fold (r (4 * g)) (r (4 * g + 1)) (r (4 * g + 2)) (r (4 * g + 3))) =
        seqOf 11 (fold (r' (4 * g)) (r' (4 * g + 1)) (r' (4 * g + 2)) (r' (4 * g + 3))) := by
    intro g hg
    have hg := List.mem_range.mp hg
    rw [h _ (by omega), h _ (by omega), h _ (by omega), h _ (by omega)]
  have trailing : ∀ j ∈ List.range 3, trail (r (4 * (w - 1) + j)) = trail (r' (4 * (w - 1) + j)) := by
    intro j hj
    have hj := List.mem_range.mp hj
    rw [h _ (by omega)]
  rw [diceEncode, List.flatMap_congr groups, List.map_congr_left trailing, diceEncode]

theorem bitsOf_zeros (n : Nat) : bitsOf (List.replicate n 0) = List.replicate (8 * n) false := by
  induction n with
  | zero => rfl
  | succ n ih =>
    have head : bitsOf (0 :: List.replicate n 0) = List.replicate 8 false ++ bitsOf (List.replicate n 0) := rfl
    rw [List.replicate_succ, head, ih, List.replicate_append_replicate]
    congr 1
    omega

theorem diceEncode_ones : diceEncode 24 (fun _ => 1) = List.replicate 256 false := by decide +kernel

/-! ### R196's three sources of zero entropy -/

section
variable (hw : s.build.w = .w24) (hf : s.fatal = false) (hp : s.phase = .collecting)
include hw hf hp

theorem exec_acqRaw_zeros (hl : s.inlen = 32) (h : ∀ k < 32, s.inbufByte k = 0) :
    exec .acqRaw s = .next (s.commit (List.replicate 256 false)) := by
  have size : entBytes s.build.w = 32 := by rw [hw]; rfl
  have bytes : (List.range 32).map s.inbufByte = List.replicate 32 0 := by
    rw [List.map_congr_left (g := fun _ => 0) fun k hk => h k (List.mem_range.mp hk)]
    rfl
  have length : s.inlen.toNat = entBytes s.build.w := by rw [hl, size]; rfl
  have committed : exec .acqRaw s = .next (s.commit (bitsOf ((List.range (entBytes s.build.w)).map s.inbufByte))) :=
    exec_input_commits (exec_acqRaw hf) hp length fun _ _ => rfl
  rw [committed, size, bytes, bitsOf_zeros]

theorem exec_acqRng_zeros {rest : List RngAnswer} (hr : s.rngReady = .bytes (List.replicate 32 0) :: rest) :
    exec .acqRng s = .next (s.rngUsed.commit (List.replicate 256 false)) := by
  have offered : s.rngAnswer = some (List.replicate 32 0) := rngAnswer_of_bytes hr (by rw [hw]; rfl)
  rw [exec_acqRng_bytes hf hp offered, bitsOf_zeros]

theorem exec_acqDice_ones (hl : s.inlen = 95) (h : ∀ k < 95, s.inbufByte k = 0x31) :
    exec .acqDice s = .next (s.commit (List.replicate 256 false)) := by
  have ones : diceEncode 24 (fun k => rollValue (s.inbufByte k)) = List.replicate 256 false := by
    rw [diceEncode_congr (r' := fun _ => 1) fun k hk => by rw [h k hk]; rfl, diceEncode_ones]
  rw [← ones]
  exact exec_input_commits (exec_acqDice_w24 hf hw) hp (by rw [hl]; rfl) fun k hk => by rw [h k hk]; rfl

end

/-- Settles O13: in CSUM_APPENDED the checksum is EBUF's own (`csumAppended_after`), so DERIVE works from EBUF and the
build; and the three sources of R196 commit the same zeros. -/
theorem phraseDependsOnEntropyAlone : Obligations.PhraseDependsOnEntropyAlone := by
  unfold Obligations.PhraseDependsOnEntropyAlone
  constructor
  · intro i j s s' t t' _ _ inv inv' hb hexec hexec' hp hp' ebuf
    obtain ⟨build, live, fresh, csum⟩ := csumAppended_after inv hexec hp
    obtain ⟨build', live', fresh', csum'⟩ := csumAppended_after inv' hexec' hp'
    rw [← hb] at build' csum'
    have sameCsum : t.csum = t'.csum := BitVec.eq_of_toNat_eq (by rw [csum, csum', ebuf])
    have sameBuild : t.build = t'.build := build.trans build'.symm
    have sameIdx : deriveIdx t.build t.ebuf t.csum t.idx = deriveIdx t'.build t'.ebuf t'.csum t'.idx := by
      rw [sameBuild, ebuf, sameCsum, fresh, fresh']
    have derive := exec_derive_slices live hp
    refine ⟨sameCsum, csum, _, _, derive, exec_derive_slices live' hp', rfl, rfl, sameIdx,
      phrase_congr sameBuild sameIdx, fun k hk => ?_⟩
    rw [idxAt_after_derive live hp derive (build ▸ hk), toNat_sliceIndex, combined, csum, build]
  · intro s s' s'' rest hw hb hb' hf hf' hf'' hp hp' hp'' hlen hraw hrng hlen' hdice
    obtain ⟨u, derive, phase, idx⟩ := exec_derive_commit_w24 hw hf (List.replicate 256 false)
    obtain ⟨u', derive', _, idx'⟩ := exec_derive_commit_w24 (s := s'.rngUsed) (hb ▸ hw) hf' (List.replicate 256 false)
    obtain ⟨u'', derive'', _, idx''⟩ := exec_derive_commit_w24 (hb' ▸ hw) hf'' (List.replicate 256 false)
    rw [State.rngUsed_build, ← hb] at idx'
    rw [← hb'] at idx''
    exact ⟨_, _, _, u, u', u'', exec_acqRaw_zeros hw hf hp hlen hraw, exec_acqRng_zeros (hb ▸ hw) hf' hp' hrng,
      exec_acqDice_ones (hb' ▸ hw) hf'' hp'' hlen' hdice, derive, derive', derive'', phase, idx.trans idx'.symm,
      idx.trans idx''.symm⟩

/-! ### Dice -/

theorem rollValue_le_six {x : Byte} (h : legalDice x = true) : rollValue x ≤ 6 := by
  simp only [legalDice_iff, List.mem_cons, List.not_mem_nil, or_false] at h
  rcases h with rfl | rfl | rfl | rfl | rfl | rfl <;> decide

/-- A fold of rolls up to six fits a group. -/
theorem fold_lt {a b c d : Nat} (ha : a ≤ 6) (hb : b ≤ 6) (hc : c ≤ 6) (hd : d ≤ 6) : fold a b c d < 2 ^ 11 := by
  have kept := kept_lt ha hb hc hd
  unfold fold
  split <;> omega

theorem drop_diceEncode (w : Nat) (r : Nat → Nat) :
    (diceEncode w r).drop (11 * (w - 1)) = (List.range 3).map fun j => trail (r (4 * (w - 1) + j)) := by
  apply List.drop_left'
  simp [List.length_flatMap, Nat.mul_comm]

theorem uint_three (x y z : Bool) : uint [x, y, z] = x.toNat * 4 + y.toNat * 2 + z.toNat := by
  cases x <;> cases y <;> cases z <;> rfl

theorem validate_of_appended {req : Nat} {legal : Byte → Bool} (hp : s.phase = .collecting)
    (ht : (s.acquireInput req legal e).phase = .csumAppended) : validate s req legal = none := by
  cases hv : validate s req legal with
  | none => rfl
  | some report =>
    rw [acquireInput_bad hp hv] at ht
    simp [hp] at ht

section
variable {r : Nat → Nat} (hw : s.build.w = .w24) (hf : s.fatal = false)
  (hderive : exec .derive (s.commit (diceEncode 24 r)) = .next u)
include hw hf hderive

theorem idxAt_after_dice (hi : i < 24) :
    u.idxAt i = sliceIndex (combined s.build (diceEncode 24 r) (s.commit (diceEncode 24 r)).csum) i :=
  idxAt_after_derive (s := s.commit _) hf rfl hderive (by rw [State.commit_build, hw]; exact hi)

theorem toNat_idxAt_group (hr : ∀ k < 95, r k ≤ 6) {g : Nat} (hg : g < 23) :
    (u.idxAt g).toNat = fold (r (4 * g)) (r (4 * g + 1)) (r (4 * g + 2)) (r (4 * g + 3)) := by
  have full : (diceEncode 24 r).length = entBits s.build.w := by rw [hw]; exact length_diceEncode _ _
  rw [idxAt_after_dice hw hf hderive (by omega), sliceIndex_combined _ full (by rw [hw]; exact hg), toNat_sliceIndex,
    slice_diceEncode hg, uint_seqOf]
  exact Nat.mod_eq_of_lt (fold_lt (hr _ (by omega)) (hr _ (by omega)) (hr _ (by omega)) (hr _ (by omega)))

theorem toNat_idxAt_trailing :
    (u.idxAt 23).toNat = (decide (4 ≤ r 92)).toNat * 1024 + (decide (4 ≤ r 93)).toNat * 512 +
      (decide (4 ≤ r 94)).toNat * 256 + (s.commit (diceEncode 24 r)).csum.toNat := by
  have full : (diceEncode 24 r).length = entBits s.build.w := by rw [hw]; exact length_diceEncode _ _
  have fits : (s.commit (diceEncode 24 r)).csum.toNat < 2 ^ csumBits s.build.w := by
    rw [State.commit_csum, toNat_checksum]
    exact checksum_lt _ _
  have last := toNat_last_sliceIndex full fits
  have trailing : uint ((diceEncode 24 r).drop 253) = uint [trail (r 92), trail (r 93), trail (r 94)] :=
    congrArg uint (drop_diceEncode 24 r)
  rw [hw, show wordCount .w24 - 1 = 23 from rfl, show entBits .w24 - (11 - csumBits .w24) = 253 from rfl, trailing,
    uint_three, show csumBits .w24 = 8 from rfl] at last
  rw [idxAt_after_dice hw hf hderive (by omega), last, trail, trail, trail]
  ring

end

/-- Settles O14: the committed bits are the dice encoding, read group by group and at the three trailing bits. -/
theorem diceIndicesAreFolds : Obligations.DiceIndicesAreFolds := by
  unfold Obligations.DiceIndicesAreFolds
  intro s t u hf hw hp hdice appended hderive
  rw [exec_acqDice_w24 hf hw] at hdice
  cases hdice
  have valid := validate_of_appended hp appended
  have legal := (validate_none.mp valid).2
  rw [acquireInput_good hp valid] at hderive ⊢
  have six : ∀ k < 95, rollValue (s.inbufByte k) ≤ 6 := fun k hk => rollValue_le_six (legal k hk)
  have trailing := toNat_idxAt_trailing hw hf hderive
  exact ⟨fun k => rollValue (s.inbufByte k), fun _ => rfl, fun g => toNat_idxAt_group hw hf hderive six, trailing⟩

end Sys2Proof.Machine
end

section
/-! Coins (40_acquisition.md R117, R118) and the checksum (42_checksum.md R160; 43_sha256.md R175, R178): the coin
encoding symbol by symbol, the padding's length, and the leading bits of the digest's first byte. -/

namespace Sys2Proof.Machine

variable {s : State} {b : Build} {n : Nat}

/-! ### Coins -/

theorem coinEncode_eq_iff {f g : Nat → Byte} :
    coinEncode n f = coinEncode n g ↔ ∀ k < n, isHeads (f k) = isHeads (g k) := by
  simp [coinEncode]

/-- The two symbols of a class differ in the case bit alone. -/
theorem isHeads_eq_iff {x y : Byte} (hx : legalCoin x = true) (hy : legalCoin y = true) :
    isHeads x = isHeads y ↔ x = y ∨ x = y ^^^ 0x20 := by
  rw [legalCoin_iff] at hx hy
  simp only [List.mem_cons, List.not_mem_nil, or_false] at hx hy
  rcases hx with rfl | rfl | rfl | rfl <;> rcases hy with rfl | rfl | rfl | rfl <;> decide

/-- The symbol of a bit: H for 1, T for 0. -/
def coinSymbol (bit : Bool) : Byte := if bit then 0x48 else 0x54

theorem legalCoin_coinSymbol (bit : Bool) : legalCoin (coinSymbol bit) = true := by cases bit <;> rfl

theorem isHeads_coinSymbol (bit : Bool) : isHeads (coinSymbol bit) = bit := by cases bit <;> rfl

theorem coinEncode_coinSymbol (e : List Bool) : coinEncode e.length (fun k => coinSymbol (e.getD k false)) = e := by
  apply List.ext_getElem (length_coinEncode _ _)
  intro k _ hk
  simp [coinEncode, isHeads_coinSymbol, hk]

theorem coinEncode_set {f g : Nat → Byte} {j : Nat} (elsewhere : ∀ k, k ≠ j → f k = g k)
    (changed : isHeads (f j) ≠ isHeads (g j)) : coinEncode n g = (coinEncode n f).set j (!(isHeads (f j))) := by
  apply List.ext_getElem (by simp)
  intro k _ _
  rw [List.getElem_set]
  split
  next here =>
    subst here
    simpa [coinEncode] using (Bool.eq_not_of_ne changed.symm)
  next there => simp [coinEncode, elsewhere k (Ne.symm there)]

/-- Settles O16: the encoding compares classes, each class has two symbols, and each bit sequence has a string. -/
theorem coinFlipsAreABijection : Obligations.CoinFlipsAreABijection := by
  unfold Obligations.CoinFlipsAreABijection
  refine fun n => ⟨fun f g legal => ?_, ?_, fun f g j _ => coinEncode_set⟩
  · rw [coinEncode_eq_iff]
    exact forall₂_congr fun k hk => isHeads_eq_iff (legal k hk).1 (legal k hk).2
  · rintro e rfl
    exact ⟨fun k => coinSymbol (e.getD k false), fun k _ => legalCoin_coinSymbol _, coinEncode_coinSymbol e⟩

/-! ### Padding -/

theorem length_shaBE64 (n : Nat) : (shaBE64 n).length = 8 := by simp [shaBE64]

theorem length_shaPad (m : List Byte) :
    (shaPad m).length = m.length + (119 - m.length % 64) % 64 + 9 := by
  simp only [shaPad, List.length_append, List.length_replicate, length_shaBE64, List.length_cons, List.length_nil]
  omega

/-- Settles O20: z = (119 - n mod 64) mod 64 fills the block. -/
theorem paddingFillsWholeBlocks : Obligations.PaddingFillsWholeBlocks := by
  unfold Obligations.PaddingFillsWholeBlocks
  intro m
  rw [length_shaPad]
  exact ⟨⟨(119 - m.length % 64) % 64, by omega, by omega, rfl⟩, by omega, by omega⟩

/-! ### The checksum -/

/-- The digest's first byte is the most significant byte of H[0] (43_sha256.md R178). -/
theorem sha256_eq_cons (m : List Byte) : ∃ rest, sha256 m = (shaHash m).a.extractLsb 31 24 :: rest := ⟨_, rfl⟩

theorem uint_take (l : List Bool) (n : Nat) : uint (l.take n) = uint l / 2 ^ (l.length - n) := by
  have split := uint_append (l.take n) (l.drop n)
  rw [List.take_append_drop, List.length_drop] at split
  have low := uint_lt (l.drop n)
  rw [List.length_drop] at low
  rw [split, Nat.add_comm, Nat.add_mul_div_right _ _ (Nat.two_pow_pos _), Nat.div_eq_of_lt low, Nat.zero_add]

/-- The leading bits of a byte string, inside its first byte. -/
theorem uint_take_bitsOf (d : Byte) (l : List Byte) (h : n ≤ 8) :
    uint ((bitsOf (d :: l)).take n) = d.toNat / 2 ^ (8 - n) := by
  have first : bitsOf (d :: l) = seqOf 8 d.toNat ++ bitsOf l := by simp [bitsOf]
  rw [first, List.take_append_of_le_length (by simpa using h), uint_take, length_seqOf, uint_seqOf,
    Nat.mod_eq_of_lt d.isLt]

theorem checksum_of_sha256 {e : List Bool} {d : Byte} (hh : b.hash = .sha256)
    (hd : (sha256 (bytesOf e)).head? = some d) : checksum b e = d.toNat / 2 ^ (8 - csumBits b.w) := by
  obtain ⟨rest, digest⟩ := List.head?_eq_some_iff.mp hd
  have bits : hashBits b (bytesOf e) = bitsOf (d :: rest) := by simp only [hashBits, hh, digest]
  rw [checksum, bits, uint_take_bitsOf d rest (csumBits_le b.w)]

/-- Settles O19: CSUM_BITS is at most 8, so the leading digest bits lie in the first byte. -/
theorem checksumIsTheLeadingDigestBits : Obligations.ChecksumIsTheLeadingDigestBits := by
  unfold Obligations.ChecksumIsTheLeadingDigestBits
  intro b e hh
  obtain ⟨rest, digest⟩ := sha256_eq_cons (bytesOf e)
  have first : (sha256 (bytesOf e)).head? = some ((shaHash (bytesOf e)).a.extractLsb 31 24) := by
    rw [digest, List.head?_cons]
  have value := checksum_of_sha256 hh first
  refine ⟨_, first, value, fun hw => ?_, fun hw => ?_⟩
  · rw [value, hw]
    exact Nat.div_one _
  · rw [value, hw]
    rfl

/-! ### The worked examples -/

/-- At W = 24 CSUM is the digest's first byte. -/
theorem csum_of_digest {e : List Bool} {d : Byte} (hw : b.w = .w24) (hh : b.hash = .sha256)
    (hd : (sha256 (bytesOf e)).head? = some d) : BitVec.ofNat 8 (checksum b e) = d := by
  apply BitVec.eq_of_toNat_eq
  rw [toNat_checksum, checksum_of_sha256 hh hd, hw]
  exact Nat.div_one _

theorem head_sha256_zeros : (sha256 (bytesOf (List.replicate 256 false))).head? = some 0x66 := by decide +kernel

theorem head_sha256_counting :
    (sha256 ((List.range 32).map (BitVec.ofNat 8))).head? = some 0x63 := by decide +kernel

theorem head_sha256_ones : (sha256 (bytesOf (List.replicate 256 true))).head? = some 0xAF := by decide +kernel

section
variable (hf : s.fatal = false) (hp : s.phase = .collecting) (hw : s.build.w = .w24)
include hf hp hw

theorem exec_acqRaw_w24 (hl : s.inlen = 32) :
    exec .acqRaw s = .next (s.commit (bitsOf ((List.range 32).map s.inbufByte))) := by
  have size : entBytes s.build.w = 32 := by rw [hw]; rfl
  have input := exec_acqRaw hf
  rw [size] at input
  exact exec_input_commits input hp (by rw [hl]; rfl) fun _ _ => rfl

theorem exec_acqCoin_heads (hl : s.inlen = 256) (h : ∀ k < 256, s.inbufByte k = 0x48) :
    exec .acqCoin s = .next (s.commit (List.replicate 256 true)) := by
  have size : entBits s.build.w = 256 := by rw [hw]; rfl
  have input := exec_acqCoin hf
  rw [size] at input
  have ones : coinEncode 256 s.inbufByte = List.replicate 256 true := by
    rw [coinEncode, List.map_congr_left (g := fun _ => true) fun k hk => by rw [h k (List.mem_range.mp hk)]; rfl,
      List.map_const', List.length_range]
  rw [← ones]
  exact exec_input_commits input hp (by rw [hl]; rfl) fun k hk => by rw [h k hk]; rfl

end

/-- Settles O10: what each command commits, and the first byte of its digest. -/
theorem workedExamplesOfTheCommands : Obligations.WorkedExamplesOfTheCommands := by
  unfold Obligations.WorkedExamplesOfTheCommands
  refine ⟨?_, ?_, ?_, ?_, ?_⟩
  · intro s rest hf hp hw hh hr
    exact ⟨_, exec_acqRng_zeros hw hf hp hr, rfl, csum_of_digest (b := s.build) hw hh head_sha256_zeros, rfl⟩
  · intro s hf hp hw hh hl h
    have counting : (List.range 32).map s.inbufByte = (List.range 32).map (BitVec.ofNat 8) :=
      List.map_congr_left fun k hk => h k (List.mem_range.mp hk)
    refine ⟨_, exec_acqRaw_w24 hf hp hw hl, rfl, csum_of_digest hw hh ?_⟩
    rw [bytesOf_bitsOf, counting]
    exact head_sha256_counting
  · intro s hf hp hw hh hl h
    exact ⟨_, exec_acqCoin_heads hf hp hw hl h, rfl, csum_of_digest hw hh head_sha256_ones⟩
  · intro s hf hw hp hh hl h
    have csum : BitVec.ofNat 8 (checksum s.build (List.replicate 256 false)) = 0x66 :=
      csum_of_digest hw hh head_sha256_zeros
    exact ⟨_, exec_acqDice_ones hw hf hp hl h, rfl, csum⟩
  · intro s hf hp hw hzero hcsum
    have derive := exec_derive_slices hf hp
    have full : s.ebuf.length = entBits s.build.w := by rw [hzero, hw, List.length_replicate]; rfl
    have fits : s.csum.toNat < 2 ^ csumBits s.build.w := by rw [hcsum, hw]; decide
    have words : wordCount s.build.w = 24 := by rw [hw]; rfl
    refine ⟨_, derive, fun i hi => ?_, ?_⟩
    · rw [idxAt_after_derive hf hp derive (by omega), sliceIndex_combined _ full (by omega), hzero, sliceIndex_zeros]
    · have last := toNat_last_sliceIndex full fits
      rw [hw, hzero, List.drop_replicate, uint_replicate_false, hcsum] at last
      apply BitVec.eq_of_toNat_eq
      rw [idxAt_after_derive hf hp derive (by omega), hzero, hcsum]
      exact last

end Sys2Proof.Machine
end
